-- ==== Sys2Proof/Word.lean ====
section
/-! DEFINITION. The word types of the engine (spec/00_scope.md R6, R7). Nothing in the hardware is signed. -/

namespace Sys2Proof

/-- `u8`: a message byte, a digest byte, a hex character, a status byte, ERRCODE (R7). -/
abbrev Byte := BitVec 8

/-- `u32`: a word of the Hash State, of the schedule, of K and IV (R6 `WORD_BITS`). -/
abbrev Word := BitVec 32

/-- `u64`: the message byte counter L and the padding's length field (R6 `LEN_FIELD_BITS`). -/
abbrev Len := BitVec 64

/-- A 16-bit command word (R6 `CMD_BITS`, spec/30_encoding.md R45). -/
abbrev CmdWord := BitVec 16

/-- A 16-bit response word (R6 `RESP_BITS`, spec/30_encoding.md R46). -/
abbrev RespWord := BitVec 16

end Sys2Proof
end

