-- ==== Sys2Proof/Config.lean ====
section
/-! DEFINITION. The parameters of the hardware (spec/00_scope.md R6): the fixed ones as numbers, the OPEN ones as
constants with no body. -/

namespace Sys2Proof

/-- `BLOCK_BYTES`: a block is exactly 64 bytes (R6). -/
def Config.blockBytes : Nat := 64

/-- `MAX_MSG_BYTES` = 2^61 − 1 (R6, spec/40_block_assembler.md R56). -/
def Config.maxMsgBytes : Nat := 2305843009213693951

/-- `N_INSTANCES`, OPEN (R6, spec/60_exceptions.md R104): how many engines the platform places. -/
opaque Config.nInstances : Nat

/-- `CMD_LATENCY`, OPEN (R6, spec/70_reset_and_hazards.md R113): the time a command word takes, possibly depending on
the number of folds it performs. R113: no rule and no observation depends on it, so no definition of the model uses it. -/
opaque Config.cmdLatency : CmdWord → Nat → Nat

end Sys2Proof
end

