-- ==== Sys2Proof/Syntax.lean ====
section
/-! DEFINITION. The commands of the engine: one constructor per row of spec/opcode_table.json (spec/30_encoding.md R47). -/

namespace Sys2Proof

/-- The seven commands (R47). The operand of ABSORB is a data byte, that of RDDIG and RDHEX an index, that of RDSTAT a
selector; each is the 8-bit field OPND (R48), and an index out of range is a command like any other (R52). -/
inductive Instr where
  /-- NOP, word 0x0000 (R78). -/
  | nop
  /-- RESET, word 0x0100 (R71). -/
  | reset
  /-- ABSORB d, word 0x02dd (R54). -/
  | absorb (d : Byte)
  /-- FINALIZE, word 0x0300 (R57). -/
  | finalize
  /-- RDDIG i, word 0x04ii (R75). -/
  | rddig (i : Byte)
  /-- RDHEX i, word 0x05ii (R76). -/
  | rdhex (i : Byte)
  /-- RDSTAT s, word 0x06ss (R77). -/
  | rdstat (sel : Byte)
deriving DecidableEq, Repr

end Sys2Proof
end

