-- ==== Sys2Proof/WellFormed.lean ====
section
/-! DEFINITION. What an encodable operand is (spec/30_encoding.md R48, R52, R53). -/

namespace Sys2Proof

/-- An operand the assembler accepts for a command: 0..255. "The assembler refuses an `imm8` outside 0..255" (R52). -/
def imm8Ok (n : Nat) : Bool := decide (n < 256)

/-- A raw word the WORD directive accepts: 1 to 4 hex digits (R53). -/
def imm16Ok (n : Nat) : Bool := decide (n < 65536)

/-- The operand field OPND of a command as a number; 0 where the operand is part of the match (R48). -/
def Instr.opnd : Instr → Byte
  | .nop => 0
  | .reset => 0
  | .absorb d => d
  | .finalize => 0
  | .rddig i => i
  | .rdhex i => i
  | .rdstat sel => sel

/-- A command is well formed when its operand fits the field OPND[7:0]. The operand's type is `Byte`, so every term of
`Instr` is well formed (`Instr.wf_all`, Laws/Encoding.lean); an index out of range is not ill formed, it is answered
with BAD_INDEX when it runs (R52). -/
def Instr.wf (i : Instr) : Bool := imm8Ok i.opnd.toNat

end Sys2Proof
end

