-- ==== Sys2Proof/Decode.lean ====
section
/-! DEFINITION. Decoding and encoding of command words (spec/30_encoding.md R45 to R50; spec/opcode_table.json). -/

namespace Sys2Proof

/-- `OPC`, bits [15:8] of a command word (R45). -/
def opcField (w : CmdWord) : Byte := w.extractLsb' 8 8

/-- `OPND`, bits [7:0] of a command word (R45). -/
def opndField (w : CmdWord) : Byte := w.extractLsb' 0 8

/-- Why a word is illegal: the two cases of R49. -/
inductive IllegalWord where
  /-- An opcode 0x07 to 0xFF, with any operand. -/
  | unassignedOpcode
  /-- The opcode of NOP, RESET or FINALIZE with a nonzero operand. -/
  | nonzeroOperand
deriving DecidableEq, Repr

/-- A command whose operand is part of the match: the operand must be 0x00 (R48). -/
def noOperand (opnd : Byte) (i : Instr) : Except IllegalWord Instr :=
  if opnd = 0 then .ok i else .error .nonzeroOperand

/-- The command a word stands for, or why it is illegal (R47, R48, R49). Total; MODE plays no part in it (R50). -/
def decode (w : CmdWord) : Except IllegalWord Instr :=
  match (opcField w).toNat with
  | 0 => noOperand (opndField w) .nop
  | 1 => noOperand (opndField w) .reset
  | 2 => .ok (.absorb (opndField w))
  | 3 => noOperand (opndField w) .finalize
  | 4 => .ok (.rddig (opndField w))
  | 5 => .ok (.rdhex (opndField w))
  | 6 => .ok (.rdstat (opndField w))
  | _ => .error .unassignedOpcode

/-- A row of the opcode table: the bits that are fixed and their values (R47). -/
structure OpcodeRow where
  mnemonic : String
  fixedBits : CmdWord
  mask : CmdWord
deriving DecidableEq, Repr

/-- The row of NOP. -/
def rowNop : OpcodeRow := ⟨"NOP", 0x0000#16, 0xFFFF#16⟩
/-- The row of RESET. -/
def rowReset : OpcodeRow := ⟨"RESET", 0x0100#16, 0xFFFF#16⟩
/-- The row of ABSORB. -/
def rowAbsorb : OpcodeRow := ⟨"ABSORB", 0x0200#16, 0xFF00#16⟩
/-- The row of FINALIZE. -/
def rowFinalize : OpcodeRow := ⟨"FINALIZE", 0x0300#16, 0xFFFF#16⟩
/-- The row of RDDIG. -/
def rowRddig : OpcodeRow := ⟨"RDDIG", 0x0400#16, 0xFF00#16⟩
/-- The row of RDHEX. -/
def rowRdhex : OpcodeRow := ⟨"RDHEX", 0x0500#16, 0xFF00#16⟩
/-- The row of RDSTAT. -/
def rowRdstat : OpcodeRow := ⟨"RDSTAT", 0x0600#16, 0xFF00#16⟩

/-- The opcode map (R47). -/
def opcodeTable : List OpcodeRow :=
  [rowNop, rowReset, rowAbsorb, rowFinalize, rowRddig, rowRdhex, rowRdstat]

/-- "A command word selects a command when `(word & mask) == match`" (R47). -/
def OpcodeRow.selects (r : OpcodeRow) (w : CmdWord) : Bool := (w &&& r.mask) == r.fixedBits

/-- The table row of a command. -/
def Instr.row : Instr → OpcodeRow
  | .nop => rowNop
  | .reset => rowReset
  | .absorb _ => rowAbsorb
  | .finalize => rowFinalize
  | .rddig _ => rowRddig
  | .rdhex _ => rowRdhex
  | .rdstat _ => rowRdstat

/-- The command word of a command: the row's fixed bits and the operand field (R47, R52). -/
def encode (i : Instr) : CmdWord := i.row.fixedBits ||| i.opnd.setWidth 16

/-- The command the decoder reads from a word numbered as spec/opcode_table.json numbers it: one 16-bit word, bit 0 its
least significant bit; bits from `nbits` up are 0. No command is longer than one word (R45). -/
def decodeTableWord (nbits w : Nat) : Option Instr :=
  if nbits ≤ 16 then
    match decode (BitVec.ofNat 16 (w % 2 ^ nbits)) with
    | .ok i => some i
    | .error _ => none
  else none

end Sys2Proof
end

