-- ==== Sys2Proof/Machine/State.lean ====
section
/-! DEFINITION. The state of the engine as plain data (spec/10_state.md R13), its reset value (R27), and the reasons a step
can stop. The transient W and a..h hold no value outside a fold and are no part of it (R17, R18). -/

namespace Sys2Proof.Machine

/-- MODE (R21). Code 3 is never held, so the type has three values (spec/93_implementation_defined.md U8). -/
inductive Mode where
  /-- A computation is open and accepts message bytes. -/
  | absorb
  /-- Padding applied and all blocks folded; the digest is readable. -/
  | done
  /-- The computation failed; no digest will be given. -/
  | error
deriving DecidableEq, Repr

/-- BUF[0..63] as its entries that hold a value, (index, byte), indexes strictly rising. An entry not listed holds no value
(R19). -/
abbrev Memory := List Host.Cell

/-- The one canonical form: indexes strictly rising, each inside BUF (R19, spec/20_memory.md R28). -/
abbrev Memory.wf (m : Memory) : Prop :=
  (m.map Prod.fst).Pairwise (· < ·) ∧ ∀ a ∈ m.map Prod.fst, a < 64

/-- The state of the engine: R13's tuple, and its two ports (spec/30_encoding.md R45, R46). -/
structure State where
  /-- HS[0..7] (R14). -/
  hs : HashState
  /-- BUF[0..63] (R19). -/
  buf : Memory
  /-- L, the message byte counter MSGLEN (R20). -/
  len : Len
  /-- MODE (R21). -/
  mode : Mode
  /-- ERRCODE (R22). -/
  errcode : Byte
  /-- Command port: the command words sent and not yet performed, oldest first (spec/70_reset_and_hazards.md R112). -/
  cmds : List CmdWord
  /-- Response port: the response words given since power-on, oldest first (spec/00_scope.md R11). -/
  resps : List RespWord
deriving DecidableEq, Repr

/-- Why the machine stops with a fault. No state that a run from reset reaches raises one. -/
inductive Fault where
  /-- Raised by `State.memRead`, for a fold or for FINALIZE's tail: entry `a` of BUF holds no value ("must fault if its own
  code ever reads one", R19). Safe: the model stops and invents no byte. -/
  | bufNoValue (a : Nat)
  /-- Raised by `State.memRead` and `State.memWrite`: BUF has no entry `a` (spec/20_memory.md R28, R29). Safe. -/
  | bufNoEntry (a : Nat)
deriving DecidableEq, Repr

/-- Why a step has no meaning. -/
inductive Refusal where
  /-- Raised by an arm of `exec` whose instruction has no meaning yet; no arm is left so. Safe. -/
  | notModelled (mnemonic : String)
deriving DecidableEq, Repr

/-- What a command or a step answers. -/
abbrev Outcome := Host.Outcome State Fault Refusal

/-- The machine right after power-on reset (R27, spec/70_reset_and_hazards.md R107): HS = IV, L = 0, MODE = ABSORB,
ERRCODE = 0x00, BUF with no value. No command has been sent yet, and power-on "produces no response word". -/
def State.reset : State where
  hs := iv
  buf := []
  len := 0#64
  mode := .absorb
  errcode := 0#8
  cmds := []
  resps := []

end Sys2Proof.Machine
end

