-- ==== Sys2Proof/Machine/Ops.lean ====
section
/-! DEFINITION. The operations over BUF, the registers and the two ports: `MemRead`, `MemWrite`, `respond`, `raise Reject`,
`raise Fatal` (spec/00_scope.md R10), the entry to ERROR (spec/60_exceptions.md R91, R98) and the only way back from it
(R99). -/

namespace Sys2Proof.Machine

/-- Entry `a` of BUF: its byte, or none where it holds no value (spec/10_state.md R19). -/
def Memory.lookup : Memory → Nat → Option Byte
  | [], _ => none
  | (k, v) :: rest, a => if k = a then some v else Memory.lookup rest a

/-- BUF with entry `a` holding `b`, in canonical form. -/
def Memory.insert : Memory → Nat → Byte → Memory
  | [], a, b => [(a, b)]
  | (k, v) :: rest, a, b =>
    if a < k then (a, b) :: (k, v) :: rest
    else if a = k then (a, b) :: rest
    else (k, v) :: Memory.insert rest a b

/-- The Hash State replaced. -/
def State.setHs (s : State) (h : HashState) : State := { s with hs := h }
/-- BUF replaced. -/
def State.setBuf (s : State) (m : Memory) : State := { s with buf := m }
/-- L replaced. -/
def State.setLen (s : State) (l : Len) : State := { s with len := l }
/-- MODE replaced. -/
def State.setMode (s : State) (m : Mode) : State := { s with mode := m }
/-- ERRCODE replaced. -/
def State.setErrcode (s : State) (e : Byte) : State := { s with errcode := e }
/-- The command port replaced. -/
def State.setCmds (s : State) (c : List CmdWord) : State := { s with cmds := c }
/-- One more response word given (spec/30_encoding.md R46). -/
def State.pushResp (s : State) (r : RespWord) : State := { s with resps := s.resps ++ [r] }

/-- `BUFCNT = L mod 64`, in every mode (spec/10_state.md R23). -/
def State.bufCnt (s : State) : Nat := s.len.toNat % 64

/-- One entry of BUF read: a fault where it holds no value (R19) or does not exist (spec/20_memory.md R28). -/
def State.readByte (s : State) (a : Nat) : Except Fault Byte :=
  if a < 64 then
    match s.buf.lookup a with
    | some b => .ok b
    | none => .error (.bufNoValue a)
  else .error (.bufNoEntry a)

/-- `MemRead(a, n)`: the n bytes `BUF[a] ‖ … ‖ BUF[a+n−1]` (spec/00_scope.md R10). -/
def State.memRead (s : State) (a : Nat) : Nat → Except Fault (List Byte)
  | 0 => .ok []
  | n + 1 =>
    match s.readByte a with
    | .error f => .error f
    | .ok b =>
      match s.memRead (a + 1) n with
      | .error f => .error f
      | .ok bs => .ok (b :: bs)

/-- `MemWrite(a, 1, b)`: every access to BUF is one byte wide (spec/00_scope.md R10, spec/20_memory.md R29). -/
def State.memWrite (s : State) (a : Nat) (b : Byte) : Except Fault State :=
  if a < 64 then .ok (s.setBuf (s.buf.insert a b)) else .error (.bufNoEntry a)

/-- Every entry of BUF loses its value: after a fold, a FINALIZE and a RESET (R19). -/
def State.clearBuf (s : State) : State := s.setBuf []

/-- The response codes (spec/60_exceptions.md R89). -/
inductive RespCode where
  | ok
  | illegal
  | inError
  | wrongMode
  | badIndex
  | lengthOverflow
  | internal
deriving DecidableEq, Repr

/-- The number of a response code (R89). -/
def RespCode.code : RespCode → Byte
  | .ok => 0x00#8
  | .illegal => 0x01#8
  | .inError => 0x02#8
  | .wrongMode => 0x03#8
  | .badIndex => 0x04#8
  | .lengthOverflow => 0x05#8
  | .internal => 0x06#8

/-- A response word: `CODE` in bits [15:8], `DATA` in bits [7:0] (spec/30_encoding.md R46). -/
def respWord (c : RespCode) (d : Byte) : RespWord := c.code ++ d

/-- `CODE` of a response word (R46). -/
def respCodeField (r : RespWord) : Byte := r.extractLsb' 8 8

/-- `DATA` of a response word (R46). -/
def respDataField (r : RespWord) : Byte := r.extractLsb' 0 8

/-- `respond(d)`: the command was performed, response `{OK, d}` (spec/00_scope.md R10). -/
def State.respond (s : State) (d : Byte) : State := s.pushResp (respWord .ok d)

/-- `raise Reject(code)`: no state changes, response `{code, 0x00}` (spec/00_scope.md R10, spec/60_exceptions.md R90). -/
def State.raiseReject (s : State) (c : RespCode) : State := s.pushResp (respWord c 0x00#8)

/-- `raise Fatal(code)`, the entry to ERROR: `MODE <- ERROR`, `ERRCODE <- code`, response `{code, 0x00}`, and nothing else
changes; `s` is the state before the command (spec/60_exceptions.md R91, R98). -/
def State.raiseFatal (s : State) (c : RespCode) : State :=
  ((s.setMode .error).setErrcode c.code).pushResp (respWord c 0x00#8)

/-- A new computation: what RESET writes, and the only way back from ERROR (spec/42_accumulator.md R71,
spec/60_exceptions.md R99). The ports are not written. -/
def State.newComputation (s : State) : State :=
  ((((s.setHs iv).setLen 0#64).setMode .absorb).setErrcode 0x00#8).clearBuf

/-- The next command word taken from the command port, and the state without it; none where the host has sent none
(spec/70_reset_and_hazards.md R112). -/
def State.takeCommand (s : State) : Option (CmdWord × State) :=
  match s.cmds with
  | [] => none
  | w :: rest => some (w, s.setCmds rest)

/-- An illegal word is answered with `raise Reject(ILLEGAL)`, in every mode (spec/30_encoding.md R49). -/
def State.answerIllegal (s : State) : State := s.raiseReject .illegal

/-- With no command to perform, the state is held (spec/60_exceptions.md R106; DEDUCED, log entry 5). -/
def State.idle (s : State) : State := s

/-- The host sends a command word: it is held, in arrival order, until it is performed (R112). -/
def State.send (s : State) (w : CmdWord) : State := s.setCmds (s.cmds ++ [w])

/-- Power lost and restored: the state of power-on reset, whatever it was before (spec/60_exceptions.md R106,
spec/93_implementation_defined.md U13). -/
def State.powerCycle (_ : State) : State := State.reset

end Sys2Proof.Machine
end

