-- ==== Sys2Proof/Machine/Flags.lean ====
section
/-! DEFINITION. The engine has no condition codes, carry or overflow flags (spec/10_state.md R24): the only status the host
can see, beside the response code, is the read-only status view computed here (R25, R26). -/

namespace Sys2Proof.Machine

/-- The code of MODE in STAT_MODE bits [1:0] (R21). -/
def Mode.code : Mode → BitVec 2
  | .absorb => 0#2
  | .done => 1#2
  | .error => 2#2

/-- The status byte a selector picks, none where it selects nothing (R25). Reserved bits read 0; selectors 3 to 10 are
`BE64BYTES(L)`. -/
def State.statByte (s : State) : Nat → Option Byte
  | 0 => some (s.mode.code.setWidth 8)
  | 1 => some ((s.len.extractLsb' 0 6).setWidth 8)
  | 2 => some s.errcode
  | 3 => some (s.len.extractLsb' 56 8)
  | 4 => some (s.len.extractLsb' 48 8)
  | 5 => some (s.len.extractLsb' 40 8)
  | 6 => some (s.len.extractLsb' 32 8)
  | 7 => some (s.len.extractLsb' 24 8)
  | 8 => some (s.len.extractLsb' 16 8)
  | 9 => some (s.len.extractLsb' 8 8)
  | 10 => some (s.len.extractLsb' 0 8)
  | _ => none

end Sys2Proof.Machine
end

