-- ==== Sys2Proof/Machine/Operands.lean ====
section
/-! DEFINITION. How the operand field OPND is read (spec/30_encoding.md R48): as a data byte taken as is, or as an unsigned
index, zero-extended. Never sign-extended, scaled or shifted; there is no other operand form. -/

namespace Sys2Proof.Machine

/-- ABSORB's `d = OPND`, the message byte, taken as is (R48). -/
def dataOperand (opnd : Byte) : Byte := opnd

/-- `i = zext(OPND)`: the index of RDDIG and RDHEX and the selector of RDSTAT, 0..255 (R48). -/
def indexOperand (opnd : Byte) : Nat := opnd.toNat

end Sys2Proof.Machine
end

