-- ==== Sys2Proof/Machine/Primitives.lean ====
section
/-! DEFINITION. The bit-manipulation primitives (spec/43_primitives.md R80 to R88) and the big-endian byte orders
(spec/00_scope.md R9). Each is a pure function: no state, no flag, no error. -/

namespace Sys2Proof.Machine

/-- `ADD32(x, y) = (x + y) mod 2^32` (R80). A sum of more terms is written with `+` on `Word`, which is the same. -/
def add32 (x y : Word) : Word := x + y

/-- `ROTR(x, n) = (x >> n) | (x << (32 − n))` (R81). -/
def rotr (x : Word) (n : Nat) : Word := (x >>> n) ||| (x <<< (32 - n))

/-- `SHR(x, n) = x >> n`, filling with zeros (R82). -/
def shr (x : Word) (n : Nat) : Word := x >>> n

/-- `Ch(x, y, z) = (x & y) ^ (~x & z)` (R83). -/
def ch (x y z : Word) : Word := (x &&& y) ^^^ (~~~x &&& z)

/-- `Maj(x, y, z) = (x & y) ^ (x & z) ^ (y & z)` (R84). -/
def maj (x y z : Word) : Word := (x &&& y) ^^^ (x &&& z) ^^^ (y &&& z)

/-- `Σ0`, BSIG0 (R85). -/
def bsig0 (x : Word) : Word := rotr x 2 ^^^ rotr x 13 ^^^ rotr x 22

/-- `Σ1`, BSIG1 (R86). -/
def bsig1 (x : Word) : Word := rotr x 6 ^^^ rotr x 11 ^^^ rotr x 25

/-- `σ0`, SSIG0 (R87). -/
def ssig0 (x : Word) : Word := rotr x 7 ^^^ rotr x 18 ^^^ shr x 3

/-- `σ1`, SSIG1 (R88). -/
def ssig1 (x : Word) : Word := rotr x 17 ^^^ rotr x 19 ^^^ shr x 10

/-- `BE32(b0, b1, b2, b3)`: the big-endian reading of four bytes (R9). -/
def be32 (b0 b1 b2 b3 : Byte) : Word := b0 ++ b1 ++ b2 ++ b3

/-- `BE32BYTES(w)`: the four bytes of a word, most significant first (R9). -/
def be32Bytes (w : Word) : List Byte :=
  [w.extractLsb' 24 8, w.extractLsb' 16 8, w.extractLsb' 8 8, w.extractLsb' 0 8]

/-- `BE64BYTES(v)`: the eight bytes of a u64, most significant first; byte k is `v[63−8k : 56−8k]` (R9). -/
def be64Bytes (v : Len) : List Byte :=
  [v.extractLsb' 56 8, v.extractLsb' 48 8, v.extractLsb' 40 8, v.extractLsb' 32 8,
    v.extractLsb' 24 8, v.extractLsb' 16 8, v.extractLsb' 8 8, v.extractLsb' 0 8]

end Sys2Proof.Machine
end

