-- ==== Sys2Proof/Machine/Accumulator.lean ====
section
/-! DEFINITION. The State Accumulator and the digest formatter: NOP, RESET, RDDIG, RDHEX and RDSTAT
(spec/42_accumulator.md R71, R73 to R78). -/

namespace Sys2Proof.Machine

/-- `DIGEST = BE32BYTES(HS[0]) ‖ … ‖ BE32BYTES(HS[7])`, 32 bytes (R73, spec/20_memory.md R33). -/
def digestBytes (hs : HashState) : List Byte := hs.toList.flatMap be32Bytes

/-- `HEXCHAR(n)`: 0x30 + n for 0..9, 0x61 + (n − 10) for 10..15 (R74). -/
def hexChar (n : BitVec 4) : Byte :=
  if n.toNat < 10 then 0x30#8 + n.setWidth 8 else 0x61#8 + (n.setWidth 8 - 10#8)

/-- `HEX[0..63]`: for each digest byte the character of its high nibble, then of its low nibble (R74). -/
def hexChars (hs : HashState) : List Byte :=
  (digestBytes hs).flatMap fun b => [hexChar (b.extractLsb' 4 4), hexChar (b.extractLsb' 0 4)]

/-- The end of a read command: the byte read, or BAD_INDEX where the index or selector picks nothing
(spec/60_exceptions.md R89). No state changes (spec/20_memory.md R36). -/
def State.answerRead (s : State) (b : Option Byte) : State :=
  match b with
  | some d => s.respond d
  | none => s.raiseReject .badIndex

/-- NOP does nothing, in every mode (R78). -/
def execNop (s : State) : Outcome := .next (s.respond 0x00#8)

/-- RESET starts a new computation, in every mode (R71). -/
def execReset (s : State) : Outcome := .next (s.newComputation.respond 0x00#8)

/-- RDDIG i reads one digest byte; only 0..31 are in range (R75; checks in the order of spec/60_exceptions.md R95). -/
def execRddig (i : Byte) (s : State) : Outcome :=
  match s.mode with
  | .error => .next (s.raiseReject .inError)
  | .absorb => .next (s.raiseReject .wrongMode)
  | .done => .next (s.answerRead (digestBytes s.hs)[indexOperand i]?)

/-- RDHEX i reads one character of the hex digest; only 0..63 are in range (R76). -/
def execRdhex (i : Byte) (s : State) : Outcome :=
  match s.mode with
  | .error => .next (s.raiseReject .inError)
  | .absorb => .next (s.raiseReject .wrongMode)
  | .done => .next (s.answerRead (hexChars s.hs)[indexOperand i]?)

/-- RDSTAT s reads one status byte, in every mode; only selectors 0..10 are in range (R77). -/
def execRdstat (sel : Byte) (s : State) : Outcome :=
  .next (s.answerRead (s.statByte (indexOperand sel)))

end Sys2Proof.Machine
end

