-- ==== Sys2Proof/Machine/Compression.lean ====
section
/-! DEFINITION. The Compression Engine: message schedule, rounds and output fold (spec/41_compression.md R63 to R70), and
the fold of one block (spec/42_accumulator.md R72). W and a..h exist only here, as local values (spec/10_state.md R17,
R18). -/

namespace Sys2Proof.Machine

/-- The block read as big-endian words: `W[t] = BE32(blk[4t], …, blk[4t+3])` (R64). -/
def blockWords : List Byte → List Word
  | b0 :: b1 :: b2 :: b3 :: rest => be32 b0 b1 b2 b3 :: blockWords rest
  | _ => []

/-- `σ1(W[t−2]) + W[t−7] + σ0(W[t−15]) + W[t−16]`, the word at index t from the words before it (R65). -/
def scheduleWord (ws : List Word) (t : Nat) : Word :=
  ssig1 (ws.getD (t - 2) 0) + ws.getD (t - 7) 0 + ssig0 (ws.getD (t - 15) 0) + ws.getD (t - 16) 0

/-- `n` more schedule words, in increasing order of t (R65). -/
def extendSchedule : Nat → List Word → List Word
  | 0, ws => ws
  | n + 1, ws => extendSchedule n (ws ++ [scheduleWord ws ws.length])

/-- `W[0..63]`: 16 words of the block and 48 by the recurrence (R64, R65, R70). -/
def schedule (blk : List Byte) : List Word := extendSchedule 48 (blockWords blk)

/-- The working variables a..h (spec/10_state.md R18). -/
structure WorkVars where
  a : Word
  b : Word
  c : Word
  d : Word
  e : Word
  f : Word
  g : Word
  h : Word
deriving DecidableEq, Repr

/-- `a = S[0], …, h = S[7]` (R66). -/
def initVars (s : HashState) : WorkVars := ⟨s[0], s[1], s[2], s[3], s[4], s[5], s[6], s[7]⟩

/-- `T1 = h + Σ1(e) + Ch(e,f,g) + K[t] + W[t]` (R67). -/
def roundT1 (v : WorkVars) (k w : Word) : Word := v.h + bsig1 v.e + ch v.e v.f v.g + k + w

/-- `T2 = Σ0(a) + Maj(a,b,c)` (R67). -/
def roundT2 (v : WorkVars) : Word := bsig0 v.a + maj v.a v.b v.c

/-- One round, on the round constant and the schedule word of its index (R67). -/
def roundStep (v : WorkVars) (kw : Word × Word) : WorkVars :=
  { a := roundT1 v kw.1 kw.2 + roundT2 v, b := v.a, c := v.b, d := v.c,
    e := v.d + roundT1 v kw.1 kw.2, f := v.e, g := v.f, h := v.g }

/-- Rounds t = 0, 1, …, 63 in order, each reading what the one before wrote (R67, R68). -/
def rounds (ws : List Word) (v : WorkVars) : WorkVars := (kTable.zip ws).foldl roundStep v

/-- `new_state[i] = S[i] + wv[i]` (R69). -/
def outputFold (s : HashState) (v : WorkVars) : HashState :=
  #v[s[0] + v.a, s[1] + v.b, s[2] + v.c, s[3] + v.d, s[4] + v.e, s[5] + v.f, s[6] + v.g, s[7] + v.h]

/-- `COMPRESS(blk, S)` (R63), of a block of exactly 64 bytes; `foldBlock` is its only caller and gives it no other. -/
def compress (blk : List Byte) (s : HashState) : HashState :=
  outputFold s (rounds (schedule blk) (initVars s))

/-- `FOLD(blk)` (spec/42_accumulator.md R72): the new Hash State, or none where the block is not exactly 64 bytes, which
the caller answers with `raise Fatal(INTERNAL)` (spec/60_exceptions.md R93; never reached from reset). -/
def foldBlock (blk : List Byte) (hs : HashState) : Option HashState :=
  if blk.length = Config.blockBytes then some (compress blk hs) else none

end Sys2Proof.Machine
end

