-- ==== Sys2Proof/Machine/BlockAssembler.lean ====
section
/-! DEFINITION. The Block Assembler: padding, ABSORB and FINALIZE (spec/40_block_assembler.md R54 to R61). -/

namespace Sys2Proof.Machine

/-- `z = (55 − L) mod 64`, the number of zero bytes of the padding (R58). -/
def padZeros (l : Len) : Nat := ((55 - (l.toNat : Int)) % 64).toNat

/-- `PAD(L) = 0x80 ‖ 0x00^z ‖ BE64BYTES(8·L)` (R58). -/
def padBytes (l : Len) : List Byte :=
  0x80#8 :: (List.replicate (padZeros l) 0x00#8 ++ be64Bytes (BitVec.ofNat 64 (8 * l.toNat)))

/-- The block-full fold of ABSORB: `FOLD(MemRead(0, 64))`, after which BUF holds no value (R55). `t` holds the 64th byte
and the new L; `s` is the state before the command, which a fatal error leaves as it stood (spec/60_exceptions.md R91). -/
def foldFullBlock (s t : State) : Outcome :=
  match t.memRead 0 64 with
  | .error f => .fault f
  | .ok blk =>
    match foldBlock blk t.hs with
    | none => .next (s.raiseFatal .internal)
    | some h => .next ((t.setHs h).clearBuf.respond 0x00#8)

/-- ABSORB past its mode and length checks: the byte is stored, L counts it, and a full block is folded (R54, R55). -/
def absorbByte (d : Byte) (s : State) : Outcome :=
  match s.memWrite s.bufCnt d with
  | .error f => .fault f
  | .ok t =>
    if (t.setLen (s.len + 1)).bufCnt = 0 then foldFullBlock s (t.setLen (s.len + 1))
    else .next ((t.setLen (s.len + 1)).respond 0x00#8)

/-- ABSORB d appends one message byte (R54; checks in the order of spec/60_exceptions.md R95). -/
def execAbsorb (d : Byte) (s : State) : Outcome :=
  match s.mode with
  | .error => .next (s.raiseReject .inError)
  | .done => .next (s.raiseReject .wrongMode)
  | .absorb =>
    if s.len.toNat = Config.maxMsgBytes then .next (s.raiseFatal .lengthOverflow)
    else absorbByte (dataOperand d) s

/-- The folds of FINALIZE's tail T: `FOLD(T[0..63])`, and `FOLD(T[64..127])` where `|T|` is 128 (R57). None where a fold is
of a block that is not 64 bytes, which R59 makes unreachable. -/
def foldTail (tail : List Byte) (hs : HashState) : Option HashState :=
  match foldBlock (tail.take 64) hs with
  | none => none
  | some h => if tail.length = 128 then foldBlock (tail.drop 64) h else some h

/-- FINALIZE past its mode checks: pads the tail, folds it and enters DONE; L stays and BUF holds no value after (R57). -/
def finalizeTail (s : State) : Outcome :=
  match s.memRead 0 s.bufCnt with
  | .error f => .fault f
  | .ok bs =>
    match foldTail (bs ++ padBytes s.len) s.hs with
    | none => .next (s.raiseFatal .internal)
    | some h => .next (((s.setHs h).clearBuf.setMode .done).respond 0x00#8)

/-- FINALIZE ends the message (R57; checks in the order of spec/60_exceptions.md R95). -/
def execFinalize (s : State) : Outcome :=
  match s.mode with
  | .error => .next (s.raiseReject .inError)
  | .done => .next (s.raiseReject .wrongMode)
  | .absorb => finalizeTail s

end Sys2Proof.Machine
end

