-- ==== Sys2Proof/Machine/Dispatch.lean ====
section
/-! DEFINITION. One command executed: one arm per constructor of Instr. -/

namespace Sys2Proof.Machine

/-- What a command does, whole and atomically (spec/20_memory.md R36; spec/60_exceptions.md R96). -/
def exec (i : Instr) (s : State) : Host.Outcome State Fault Refusal :=
  match i with
  | .nop => Sys2Proof.Machine.execNop s
  | .reset => Sys2Proof.Machine.execReset s
  | .absorb d => Sys2Proof.Machine.execAbsorb d s
  | .finalize => Sys2Proof.Machine.execFinalize s
  | .rddig idx => Sys2Proof.Machine.execRddig idx s
  | .rdhex idx => Sys2Proof.Machine.execRdhex idx s
  | .rdstat sel => Sys2Proof.Machine.execRdstat sel s

end Sys2Proof.Machine
end

