-- ==== Sys2Proof/Machine/Step.lean ====
section
/-! DEFINITION. One step of the engine: the next command word taken from the command port, decoded and performed
(spec/00_scope.md R11, spec/10_state.md R12). -/

namespace Sys2Proof.Machine

/-- One step (R11): with no command word waiting the state is held; an illegal word is answered ILLEGAL
(spec/30_encoding.md R49); any other word is performed. -/
def step (s : State) : Host.Outcome State Fault Refusal :=
  match s.takeCommand with
  | none => .next s.idle
  | some (w, t) =>
    match decode w with
    | .error _ => .next t.answerIllegal
    | .ok i => exec i t

/-- `s` with the word `w` at the head of the command port, where `step` takes its next command from. -/
def State.withFetchWord (s : State) (nbits w : Nat) : State :=
  s.setCmds (BitVec.ofNat 16 (w % 2 ^ nbits) :: s.cmds)

end Sys2Proof.Machine
end

