-- ==== Sys2Proof/Machine/Assembler.lean ====
section
/-! DEFINITION. The command-script assembler: statements, pseudo-instructions and the text they are written in
(spec/30_encoding.md R52, R53). The text is a list of characters. -/

namespace Sys2Proof.Machine

/-- One statement of a script: the seven commands (R52), the pseudo-instructions and the WORD directive (R53). An operand
is the number written, so that one out of range can be refused. -/
inductive Stmt where
  | nop
  | reset
  | absorb (imm8 : Nat)
  | finalize
  | rddig (imm8 : Nat)
  | rdhex (imm8 : Nat)
  | rdstat (imm8 : Nat)
  | absorbs (text : List Byte)
  | hash (text : List Byte)
  | rddigall
  | rdhexall
  | rdlen
  | word (imm16 : Nat)
deriving DecidableEq, Repr

/-- Why a script is refused. -/
inductive AsmError where
  /-- The line names no statement of R52 or R53. -/
  | unknownMnemonic
  /-- An `imm8` outside 0..255 (R52) or a raw word outside 16 bits (R53). -/
  | operandOutOfRange
  /-- An operand is missing or written in none of the ways of R52 and R53. -/
  | badOperand
  /-- Something other than a comment stands after the statement ("one statement per line", R52). -/
  | trailingText
deriving DecidableEq, Repr

/-- A statement the assembler accepts: its operand is in range (R52, R53). -/
def Stmt.wf : Stmt → Bool
  | .absorb n => imm8Ok n
  | .rddig n => imm8Ok n
  | .rdhex n => imm8Ok n
  | .rdstat n => imm8Ok n
  | .word n => imm16Ok n
  | _ => true

/-- `ABSORBS`: one `ABSORB b` for each byte, in order (R53). -/
def absorbAll (text : List Byte) : List Instr := text.map .absorb

/-- `HASH`: RESET, the bytes, FINALIZE (R53); also what the host must send to hash a message
(spec/70_reset_and_hazards.md R116). -/
def hashCommands (text : List Byte) : List Instr := .reset :: (absorbAll text ++ [.finalize])

/-- The words of a well-formed statement; a pseudo-instruction stands for its expansion (R52, R53). -/
def stmtWords : Stmt → List CmdWord
  | .nop => [encode .nop]
  | .reset => [encode .reset]
  | .absorb n => [encode (.absorb (BitVec.ofNat 8 n))]
  | .finalize => [encode .finalize]
  | .rddig n => [encode (.rddig (BitVec.ofNat 8 n))]
  | .rdhex n => [encode (.rdhex (BitVec.ofNat 8 n))]
  | .rdstat n => [encode (.rdstat (BitVec.ofNat 8 n))]
  | .absorbs text => (absorbAll text).map encode
  | .hash text => (hashCommands text).map encode
  | .rddigall => (List.range 32).map fun n => encode (.rddig (BitVec.ofNat 8 n))
  | .rdhexall => (List.range 64).map fun n => encode (.rdhex (BitVec.ofNat 8 n))
  | .rdlen => (List.range 8).map fun n => encode (.rdstat (BitVec.ofNat 8 (3 + n)))
  | .word n => [BitVec.ofNat 16 n]

/-- One statement assembled; an operand out of range is refused (R52). -/
def assembleStmt (st : Stmt) : Except AsmError (List CmdWord) :=
  if st.wf then .ok (stmtWords st) else .error .operandOutOfRange

/-- A character whose code lies in lo..hi. -/
def charIn (lo hi : Nat) (c : Char) : Bool := decide (lo ≤ c.toNat ∧ c.toNat ≤ hi)

/-- A blank inside a line: space, tab or carriage return (DESIGN CHOICE, log entry 6). -/
def isBlank (c : Char) : Bool := decide (c.toNat = 0x20 ∨ c.toNat = 0x09 ∨ c.toNat = 0x0d)

/-- The text after its leading blanks. -/
def skipBlanks : List Char → List Char
  | [] => []
  | c :: cs => if isBlank c then skipBlanks cs else c :: cs

/-- The leading characters that `p` accepts, and the rest. -/
def takeChars (p : Char → Bool) : List Char → List Char × List Char
  | [] => ([], [])
  | c :: cs => if p c then (c :: (takeChars p cs).1, (takeChars p cs).2) else ([], c :: cs)

/-- The code of a letter in upper case: mnemonics are case-insensitive (R52). -/
def upperCode (c : Char) : Nat := if charIn 0x61 0x7a c then c.toNat - 32 else c.toNat

/-- A letter. -/
def isLetter (c : Char) : Bool := charIn 0x41 0x5a c || charIn 0x61 0x7a c

/-- The value of a hexadecimal digit of either case. -/
def hexDigit (c : Char) : Option Nat :=
  if charIn 0x30 0x39 c then some (c.toNat - 0x30)
  else if charIn 0x61 0x66 c then some (c.toNat - 0x61 + 10)
  else if charIn 0x41 0x46 c then some (c.toNat - 0x41 + 10)
  else none

/-- The number that digits in a base stand for, most significant first. -/
def digitsValue (base : Nat) (ds : List Char) : Nat :=
  ds.foldl (fun acc c => acc * base + (hexDigit c).getD 0) 0

/-- `0x` and 1 to `most` hexadecimal digits (R52, R53). -/
def parseHex (most : Nat) : List Char → Option (Nat × List Char)
  | '0' :: 'x' :: cs =>
    match takeChars (fun c => (hexDigit c).isSome) cs with
    | (ds, rest) => if 1 ≤ ds.length ∧ ds.length ≤ most then some (digitsValue 16 ds, rest) else none
  | _ => none

/-- A decimal number. -/
def parseDec (cs : List Char) : Option (Nat × List Char) :=
  match takeChars (charIn 0x30 0x39) cs with
  | (ds, rest) => if 1 ≤ ds.length then some (digitsValue 10 ds, rest) else none

/-- An `imm8` in one of its three spellings: a character literal of one printable character, `0x` and one or two
hexadecimal digits, or a decimal number (R52). -/
def parseImm8 : List Char → Option (Nat × List Char)
  | '\'' :: c :: '\'' :: rest => if charIn 0x20 0x7e c then some (c.toNat, rest) else none
  | '0' :: 'x' :: cs => parseHex 2 ('0' :: 'x' :: cs)
  | cs => parseDec cs

/-- The bytes of a string after its opening quote, to its closing quote: ASCII characters and the escapes `\xHH`, `\\`
and `\"` (R53). -/
def parseStringBody : List Char → Option (List Byte × List Char)
  | '"' :: rest => some ([], rest)
  | '\\' :: '\\' :: rest => (parseStringBody rest).map fun r => (0x5c#8 :: r.1, r.2)
  | '\\' :: '"' :: rest => (parseStringBody rest).map fun r => (0x22#8 :: r.1, r.2)
  | '\\' :: 'x' :: d1 :: d0 :: rest =>
    match hexDigit d1, hexDigit d0 with
    | some n1, some n0 => (parseStringBody rest).map fun r => (BitVec.ofNat 8 (n1 * 16 + n0) :: r.1, r.2)
    | _, _ => none
  | '\\' :: _ => none
  | c :: rest =>
    if c.toNat < 128 then (parseStringBody rest).map fun r => (BitVec.ofNat 8 c.toNat :: r.1, r.2) else none
  | [] => none

/-- A string operand: its opening quote, then its body (R53). -/
def parseString : List Char → Option (List Byte × List Char)
  | '"' :: cs => parseStringBody cs
  | _ => none

/-- What follows a mnemonic: nothing, an `imm8`, a string or a raw word. -/
inductive OperandShape where
  | bare (st : Stmt)
  | imm8 (mk : Nat → Stmt)
  | text (mk : List Byte → Stmt)
  | raw

/-- The mnemonics of R52 and R53, in upper case. -/
def statementTable : List (List Char × OperandShape) :=
  [(['N', 'O', 'P'], .bare .nop), (['R', 'E', 'S', 'E', 'T'], .bare .reset),
    (['A', 'B', 'S', 'O', 'R', 'B'], .imm8 .absorb), (['F', 'I', 'N', 'A', 'L', 'I', 'Z', 'E'], .bare .finalize),
    (['R', 'D', 'D', 'I', 'G'], .imm8 .rddig), (['R', 'D', 'H', 'E', 'X'], .imm8 .rdhex),
    (['R', 'D', 'S', 'T', 'A', 'T'], .imm8 .rdstat), (['A', 'B', 'S', 'O', 'R', 'B', 'S'], .text .absorbs),
    (['H', 'A', 'S', 'H'], .text .hash), (['R', 'D', 'D', 'I', 'G', 'A', 'L', 'L'], .bare .rddigall),
    (['R', 'D', 'H', 'E', 'X', 'A', 'L', 'L'], .bare .rdhexall), (['R', 'D', 'L', 'E', 'N'], .bare .rdlen),
    (['W', 'O', 'R', 'D'], .raw)]

/-- The row a mnemonic names, letters of either case (R52). -/
def lookupMnemonic (name : List Char) : Option OperandShape :=
  (statementTable.find? fun r => r.1.map Char.toNat == name.map upperCode).map Prod.snd

/-- The operand of a statement; at least one blank stands between it and the mnemonic (DESIGN CHOICE, log entry 6). -/
def parseOperand {α : Type} (p : List Char → Option (α × List Char)) (mk : α → Stmt) :
    List Char → Except AsmError (Stmt × List Char)
  | [] => .error .badOperand
  | c :: cs =>
    if isBlank c then
      match p (skipBlanks cs) with
      | some (v, rest) => .ok (mk v, rest)
      | none => .error .badOperand
    else .error .badOperand

/-- The statement a line's text begins with. -/
def parseStmt (cs : List Char) : Except AsmError (Stmt × List Char) :=
  match takeChars isLetter cs with
  | (name, rest) =>
    match lookupMnemonic name with
    | none => .error .unknownMnemonic
    | some (.bare st) => .ok (st, rest)
    | some (.imm8 mk) => parseOperand parseImm8 mk rest
    | some (.text mk) => parseOperand parseString mk rest
    | some .raw => parseOperand (parseHex 4) .word rest

/-- A line ends at its end or at a comment: `;` to the end of the line (R52). -/
def lineEnds : List Char → Bool
  | [] => true
  | c :: _ => c.toNat == 0x3b

/-- One line: blank, a comment, or one statement (R52). -/
def assembleLine (line : List Char) : Except AsmError (List CmdWord) :=
  if lineEnds (skipBlanks line) then .ok []
  else
    match parseStmt (skipBlanks line) with
    | .error e => .error e
    | .ok (st, rest) => if lineEnds (skipBlanks rest) then assembleStmt st else .error .trailingText

/-- The lines of a text. -/
def splitLines : List Char → List (List Char)
  | [] => [[]]
  | c :: cs =>
    if c.toNat = 0x0a then [] :: splitLines cs
    else
      match splitLines cs with
      | [] => [[c]]
      | l :: ls => (c :: l) :: ls

/-- The words of lines, in order; the first refused line decides. -/
def assembleLines : List (List Char) → Except AsmError (List CmdWord)
  | [] => .ok []
  | l :: ls =>
    match assembleLine l with
    | .error e => .error e
    | .ok ws =>
      match assembleLines ls with
      | .error e => .error e
      | .ok rest => .ok (ws ++ rest)

/-- A command script assembled to its command words (R52, R53). -/
def assembleText (src : List Char) : Except AsmError (List CmdWord) := assembleLines (splitLines src)

end Sys2Proof.Machine
end

