-- ==== Sys2Proof/Machine/Platform.lean ====
section
/-! DEFINITION. A platform of several engines (spec/60_exceptions.md R104). Each has its own state and command port; they
share nothing mutable and do not interact. -/

namespace Sys2Proof.Machine

/-- The engines of a platform. -/
abbrev Platform := List State

/-- A platform at power-on: `N_INSTANCES` engines, each in its reset state (R104, spec/70_reset_and_hazards.md R107). -/
def Platform.powerOn : Platform := List.replicate Config.nInstances State.reset

/-- What one engine's outcome makes of the platform: a next state replaces that engine's own. -/
def Platform.update (p : Platform) (k : Nat) : Outcome → Host.Outcome Platform Fault Refusal
  | .next t => .next (p.set k t)
  | .fault f => .fault f
  | .refused r => .refused r

/-- Engine `k` takes one step; none where the platform has no engine `k`. -/
def Platform.stepAt (p : Platform) (k : Nat) : Option (Host.Outcome Platform Fault Refusal) :=
  match p[k]? with
  | none => none
  | some s => some (Platform.update p k (step s))

end Sys2Proof.Machine
end

