-- ==== Sys2Proof/Safety.lean ====
section
/-! DEFINITION. What a safe state is, and the terms in which claims about whole computations are made. -/

namespace Sys2Proof.Machine

/-- Which entries of BUF hold a value: those below BUFCNT, and none once the tail is folded (spec/10_state.md R19, R23;
spec/40_block_assembler.md R57). -/
abbrev State.bufFilled (s : State) : Prop :=
  s.buf.map Prod.fst = if s.mode = .done then [] else List.range s.bufCnt

/-- ERRCODE is 0x00 outside ERROR (spec/10_state.md R22). In ERROR it is LENGTH_OVERFLOW, entered at L = 2^61 − 1, since
INTERNAL is unreachable (spec/60_exceptions.md R92, R93). -/
abbrev State.errcodeAgrees (s : State) : Prop :=
  if s.mode = .error then s.errcode = RespCode.lengthOverflow.code ∧ s.len.toNat = Config.maxMsgBytes
  else s.errcode = 0x00#8

/-- A response word the engine may give: a code 0x00 to 0x06, and DATA 0x00 unless the code is OK
(spec/60_exceptions.md R89, spec/30_encoding.md R46). -/
abbrev respAllowed (r : RespWord) : Prop :=
  (respCodeField r).toNat ≤ 6 ∧ (respCodeField r ≠ 0x00#8 → respDataField r = 0x00#8)

/-- The invariant of the engine: what every state reached from reset satisfies. -/
abbrev State.Inv (s : State) : Prop :=
  s.bufFilled ∧ s.len.toNat ≤ Config.maxMsgBytes ∧ s.errcodeAgrees ∧ ∀ r ∈ s.resps, respAllowed r

/-- The code a command is answered with: its checks in the order of spec/60_exceptions.md R95, the first that applies
deciding. -/
def codeByPriority (i : Instr) (s : State) : RespCode :=
  match i with
  | .nop => .ok
  | .reset => .ok
  | .rdstat sel => if sel.toNat > 10 then .badIndex else .ok
  | .absorb _ =>
    if s.mode = .error then .inError
    else if s.mode = .done then .wrongMode
    else if s.len.toNat = Config.maxMsgBytes then .lengthOverflow
    else .ok
  | .finalize =>
    if s.mode = .error then .inError
    else if s.mode = .done then .wrongMode
    else .ok
  | .rddig i =>
    if s.mode = .error then .inError
    else if s.mode = .absorb then .wrongMode
    else if i.toNat > 31 then .badIndex
    else .ok
  | .rdhex i =>
    if s.mode = .error then .inError
    else if s.mode = .absorb then .wrongMode
    else if i.toNat > 63 then .badIndex
    else .ok

/-- Commands performed one after the other, each on the state the one before it left (spec/20_memory.md R39); a fault or a
refusal stops the run. -/
def execAll : List Instr → State → Outcome
  | [], s => .next s
  | i :: is, s =>
    match exec i s with
    | .next t => execAll is t
    | .fault f => .fault f
    | .refused r => .refused r

/-- The consecutive 64-byte slices of a byte sequence, `n` of them (spec/40_block_assembler.md R62). -/
def slices : Nat → List Byte → List (List Byte)
  | 0, _ => []
  | n + 1, bs => bs.take 64 :: slices n (bs.drop 64)

/-- `M ‖ PAD(L)` (R62). -/
def paddedMessage (msg : List Byte) : List Byte := msg ++ padBytes (BitVec.ofNat 64 msg.length)

/-- The blocks a computation folds: the 64-byte slices of `M ‖ PAD(L)`, in order (R62). -/
def messageBlocks (msg : List Byte) : List (List Byte) :=
  slices ((paddedMessage msg).length / 64) (paddedMessage msg)

/-- The Hash State after a whole message: every block folded, in order, from IV (R62, spec/20_memory.md R40). -/
def hashOf (msg : List Byte) : HashState :=
  (messageBlocks msg).foldl (fun h blk => compress blk h) iv

end Sys2Proof.Machine
end

