-- ==== Sys2Proof/Certificates/Slice0/Obligations.lean ====
section
/-! DEFINITION. The statements about the engine, from the numbered rules of spec/. A state a command leaves is written as a
record update of the state before it, so that every field not named in it is unchanged: that is the command's frame, BUF
and the ports included. -/

open Sys2Proof Sys2Proof.Machine

/-! ## Encoding -/

/-- The round trip of the encoding, for all seven commands with every operand, in both directions
(spec/30_encoding.md R47, R48). -/
def Obligations.EncodeAndDecodeAgree : Prop :=
  (∀ i : Instr, decode (encode i) = .ok i) ∧ (∀ (w : CmdWord) (i : Instr), decode w = .ok i → encode i = w)

/-- R47: a word selects a command when `(word & mask) == match`; for no word two rows hold, and the row that holds is that
of the command the decoder reads. -/
def Obligations.OpcodeTableSelectsTheDecodedCommand : Prop :=
  (opcodeTable.map fun r => (r.mnemonic, r.fixedBits, r.mask)) =
      [("NOP", 0x0000#16, 0xFFFF#16), ("RESET", 0x0100#16, 0xFFFF#16), ("ABSORB", 0x0200#16, 0xFF00#16),
        ("FINALIZE", 0x0300#16, 0xFFFF#16), ("RDDIG", 0x0400#16, 0xFF00#16), ("RDHEX", 0x0500#16, 0xFF00#16),
        ("RDSTAT", 0x0600#16, 0xFF00#16)] ∧
    (∀ w : CmdWord, (opcodeTable.filter fun r => w &&& r.mask == r.fixedBits).length ≤ 1) ∧
    ∀ w : CmdWord, ∀ r ∈ opcodeTable, w &&& r.mask = r.fixedBits ↔ ∃ i, decode w = .ok i ∧ i.row = r

/-- R49: which words are illegal, and that each is answered `0x0100` with no state change, in every mode. -/
def Obligations.IllegalWordsAreAnsweredIllegal : Prop :=
  ∀ w : CmdWord,
    ((∃ e, decode w = .error e) ↔
      7 ≤ (opcField w).toNat ∨
        ((opcField w = 0x00#8 ∨ opcField w = 0x01#8 ∨ opcField w = 0x03#8) ∧ opndField w ≠ 0x00#8)) ∧
    ∀ (s : State) (rest : List CmdWord) (e : IllegalWord), s.cmds = w :: rest → decode w = .error e →
      step s = .next { s with cmds := rest, resps := s.resps ++ [0x0100#16] }

/-- Words written out from R47's bit patterns decode to the commands they stand for. -/
def Obligations.TableWordsDecodeToTheirCommands : Prop :=
  decode 0b0000000000000000#16 = .ok .nop ∧ decode 0b0000000100000000#16 = .ok .reset ∧
    decode 0b0000001001100001#16 = .ok (.absorb 0x61#8) ∧ decode 0b0000001100000000#16 = .ok .finalize ∧
    decode 0b0000010000011111#16 = .ok (.rddig 31#8) ∧ decode 0b0000010100111111#16 = .ok (.rdhex 63#8) ∧
    decode 0b0000011000001010#16 = .ok (.rdstat 10#8)

/-- The assembler's statements and their words (R52), and its refusal of an operand outside 0..255. -/
def Obligations.AssemblerEncodesEachStatement : Prop :=
  assembleStmt .nop = .ok [0x0000#16] ∧ assembleStmt .reset = .ok [0x0100#16] ∧
    assembleStmt .finalize = .ok [0x0300#16] ∧
    (∀ n, n < 256 →
      assembleStmt (.absorb n) = .ok [0x0200#16 + BitVec.ofNat 16 n] ∧
      assembleStmt (.rddig n) = .ok [0x0400#16 + BitVec.ofNat 16 n] ∧
      assembleStmt (.rdhex n) = .ok [0x0500#16 + BitVec.ofNat 16 n] ∧
      assembleStmt (.rdstat n) = .ok [0x0600#16 + BitVec.ofNat 16 n]) ∧
    ∀ n, 256 ≤ n →
      assembleStmt (.absorb n) = .error .operandOutOfRange ∧ assembleStmt (.rddig n) = .error .operandOutOfRange ∧
      assembleStmt (.rdhex n) = .error .operandOutOfRange ∧ assembleStmt (.rdstat n) = .error .operandOutOfRange

/-- The words of a pseudo-instruction decode to its expansion (R53). -/
def Obligations.PseudoInstructionsDecodeToTheirExpansion : Prop :=
  (∀ text : List Byte, (stmtWords (.absorbs text)).map decode = text.map fun b => .ok (.absorb b)) ∧
    (∀ text : List Byte, (stmtWords (.hash text)).map decode =
      [.ok .reset] ++ (text.map fun b => .ok (.absorb b)) ++ [.ok .finalize]) ∧
    (stmtWords .rddigall).map decode = (List.range 32).map (fun n => .ok (.rddig (BitVec.ofNat 8 n))) ∧
    (stmtWords .rdhexall).map decode = (List.range 64).map (fun n => .ok (.rdhex (BitVec.ofNat 8 n))) ∧
    (stmtWords .rdlen).map decode = (List.range' 3 8).map (fun n => .ok (.rdstat (BitVec.ofNat 8 n))) ∧
    ∀ n, n < 65536 → assembleStmt (.word n) = .ok [BitVec.ofNat 16 n]

/-! ## The step -/

/-- A step performs the command its next word decodes to, on the state with that word taken from the command port
(spec/00_scope.md R11, spec/10_state.md R12). -/
def Obligations.StepPerformsTheDecodedCommand : Prop :=
  ∀ (s : State) (w : CmdWord) (rest : List CmdWord) (i : Instr), s.cmds = w :: rest → decode w = .ok i →
    step s = exec i { s with cmds := rest }

/-- THE MODEL'S CHOICE (log entry 5, DEDUCED from spec/60_exceptions.md R106): with no command waiting, a step holds the
state. -/
def Obligations.IdleEngineHoldsItsState : Prop :=
  ∀ s : State, s.cmds = [] → step s = .next s

/-- R46: every command word taken is answered with exactly one response word; DATA is 0x00 unless a read command is
answered OK. -/
def Obligations.EachCommandWordGetsOneResponse : Prop :=
  ∀ (s t : State) (w : CmdWord) (rest : List CmdWord), s.cmds = w :: rest → step s = .next t →
    t.cmds = rest ∧ ∃ r : RespWord, t.resps = s.resps ++ [r] ∧
      (r.extractLsb' 0 8 ≠ 0x00#8 → r.extractLsb' 8 8 = 0x00#8 ∧
        ∃ n, decode w = .ok (.rddig n) ∨ decode w = .ok (.rdhex n) ∨ decode w = .ok (.rdstat n))

/-- A command word sent while another waits is held and performed after it: sending it first or performing the waiting
command first leaves the same state (spec/70_reset_and_hazards.md R112, spec/20_memory.md R39). -/
def Obligations.EarlyCommandIsHeldInOrder : Prop :=
  ∀ (s : State) (w : CmdWord), s.cmds ≠ [] →
    (∀ t, step s = .next t → step (s.send w) = .next (t.send w)) ∧
      (∀ f, step s = .fault f → step (s.send w) = .fault f) ∧ (∀ r, step s ≠ .refused r)

/-- R95: a command word is answered with the code of the first check that applies: ILLEGAL where no row matches, and
otherwise the first of the checks `codeByPriority` lists in R95's order. -/
def Obligations.FirstCheckDecidesTheCode : Prop :=
  (∀ (i : Instr) (s t : State), exec i s = .next t →
    ∃ r : RespWord, t.resps = s.resps ++ [r] ∧ r.extractLsb' 8 8 = (codeByPriority i s).code) ∧
  ∀ (s t : State) (w : CmdWord) (rest : List CmdWord), s.cmds = w :: rest → step s = .next t →
    ∃ r : RespWord, t.resps = s.resps ++ [r] ∧
      r.extractLsb' 8 8 = (match decode w with | .error _ => 0x01#8 | .ok i => (codeByPriority i s).code)

/-- R90: a rejected command changes no state; only its response is added. For ILLEGAL the word is taken from the command
port and nothing else happens. -/
def Obligations.RejectionChangesNoState : Prop :=
  (∀ (i : Instr) (s t : State), exec i s = .next t →
    codeByPriority i s ∈ [RespCode.inError, .wrongMode, .badIndex] →
      t = { s with resps := s.resps ++ [respWord (codeByPriority i s) 0x00#8] }) ∧
  ∀ (s : State) (w : CmdWord) (rest : List CmdWord) (e : IllegalWord), s.cmds = w :: rest → decode w = .error e →
    step s = .next { s with cmds := rest, resps := s.resps ++ [respWord .illegal 0x00#8] }

/-- A command completes or stops on a missing byte of BUF and on nothing else: a fault names an entry below BUFCNT that
holds no value (spec/10_state.md R19), and no command is refused. -/
def Obligations.ExecFaultsOnlyOnAByteWithoutValue : Prop :=
  ∀ (i : Instr) (s : State),
    (∀ f, exec i s = .fault f → ∃ a, a < s.len.toNat % 64 ∧ s.buf.lookup a = none ∧ f = .bufNoValue a) ∧
      ∀ r, exec i s ≠ .refused r

/-! ## NOP and RESET -/

/-- R78: NOP answers `0x0000` and changes nothing, in every state; the words `0x0001` to `0x00FF` are not NOP but
illegal. -/
def Obligations.NopOnlyResponds : Prop :=
  encode .nop = 0x0000#16 ∧
    (∀ w : CmdWord, 0x0001 ≤ w.toNat → w.toNat ≤ 0x00FF → ∃ e, decode w = .error e) ∧
    ∀ s : State, exec .nop s = .next { s with resps := s.resps ++ [0x0000#16] }

/-- R71: what RESET writes, in every mode, that RESET twice is RESET once, and that only a RESET word with a nonzero operand
is refused, as illegal. -/
def Obligations.ResetStartsANewComputation : Prop :=
  (∀ w : CmdWord, opcField w = 0x01#8 →
      if w = 0x0100#16 then decode w = .ok .reset else decode w = .error .nonzeroOperand) ∧
    (∀ s : State, exec .reset s = .next { s with
      hs := iv, buf := [], len := 0#64, mode := .absorb, errcode := 0x00#8, resps := s.resps ++ [0x0000#16] }) ∧
    ∀ s t : State, exec .reset s = .next t → exec .reset t = .next { t with resps := t.resps ++ [0x0000#16] }

/-- R27: the value of every piece of state after power-on reset and after RESET. -/
def Obligations.ResetValues : Prop :=
  iv = #v[0x6a09e667#32, 0xbb67ae85#32, 0x3c6ef372#32, 0xa54ff53a#32,
      0x510e527f#32, 0x9b05688c#32, 0x1f83d9ab#32, 0x5be0cd19#32] ∧
    ∀ t : State, (t = State.reset ∨ ∃ s, exec .reset s = .next t) →
      t.hs = iv ∧ t.len = 0#64 ∧ t.mode = .absorb ∧ t.errcode = 0x00#8 ∧ (∀ a, t.buf.lookup a = none) ∧
        ∀ sel, sel ≤ 10 → t.statByte sel = some 0x00#8

/-! ## ABSORB and FINALIZE -/

/-- ABSORB of a byte that does not fill the block (R54): the byte stands at entry L mod 64 and nowhere else, L counts it,
and every other entry of BUF and every other field is as before. -/
def Obligations.AbsorbStoresItsByte : Prop :=
  ∀ (d : Byte) (s : State), s.mode = .absorb → s.len.toNat ≠ 2 ^ 61 - 1 → s.len.toNat % 64 ≠ 63 →
    ∃ m : Memory,
      exec (.absorb d) s = .next { s with buf := m, len := s.len + 1, resps := s.resps ++ [0x0000#16] } ∧
      m.lookup (s.len.toNat % 64) = some d ∧ ∀ a, a ≠ s.len.toNat % 64 → m.lookup a = s.buf.lookup a

/-- R55: the ABSORB that fills the block folds its 64 bytes, the 63 held and the new one; after it every entry of BUF holds
no value and BUFCNT is 0. -/
def Obligations.AbsorbFoldsAFullBlock : Prop :=
  ∀ (d : Byte) (s : State) (bs : List Byte), s.mode = .absorb → s.len.toNat ≠ 2 ^ 61 - 1 → s.len.toNat % 64 = 63 →
    s.memRead 0 63 = .ok bs →
      (bs ++ [d]).length = 64 ∧ (s.len + 1).toNat % 64 = 0 ∧
      exec (.absorb d) s = .next { s with
        hs := compress (bs ++ [d]) s.hs, buf := [], len := s.len + 1, resps := s.resps ++ [0x0000#16] }

/-- R92: ABSORB at L = 2^61 − 1 is the fatal LENGTH_OVERFLOW: the byte is not stored and L stays; no other command raises
it. -/
def Obligations.AbsorbAtTheLimitIsLengthOverflow : Prop :=
  (∀ (d : Byte) (s : State), s.mode = .absorb → s.len.toNat = 2 ^ 61 - 1 →
    exec (.absorb d) s = .next { s with mode := .error, errcode := 0x05#8, resps := s.resps ++ [0x0500#16] }) ∧
  ∀ (i : Instr) (s t : State) (r : RespWord), exec i s = .next t → t.resps = s.resps ++ [r] →
    r.extractLsb' 8 8 = 0x05#8 → (∃ d, i = .absorb d) ∧ s.mode = .absorb ∧ s.len.toNat = 2 ^ 61 - 1

/-- R57: FINALIZE folds the tail `T = BUF[0..r−1] ‖ PAD(L)`, one block or two, and enters DONE; L stays, BUF holds no value
after; in ERROR it is answered IN_ERROR and in DONE WRONG_MODE. -/
def Obligations.FinalizeFoldsThePaddedTail : Prop :=
  encode .finalize = 0x0300#16 ∧
  (∀ (s : State) (bs : List Byte), s.mode = .absorb → s.memRead 0 (s.len.toNat % 64) = .ok bs →
    exec .finalize s = .next { s with
      hs := if (bs ++ padBytes s.len).length = 128
        then compress ((bs ++ padBytes s.len).drop 64) (compress ((bs ++ padBytes s.len).take 64) s.hs)
        else compress (bs ++ padBytes s.len) s.hs,
      buf := [], mode := .done, resps := s.resps ++ [0x0000#16] }) ∧
  (∀ s : State, s.mode = .error → exec .finalize s = .next { s with resps := s.resps ++ [0x0200#16] }) ∧
  ∀ s : State, s.mode = .done → exec .finalize s = .next { s with resps := s.resps ++ [0x0300#16] }

/-- R58: `PAD(L) = 0x80 ‖ 0x00^z ‖ BE64BYTES(8·L)`, with z = (55 − L) mod 64 the least number of zero bytes that puts the
length field on the last eight bytes of a block. -/
def Obligations.PaddingIsMinimal : Prop :=
  ∀ l : Len, ∃ z : Nat,
    (z : Int) = (55 - (l.toNat : Int)) % 64 ∧ z ≤ 63 ∧ (l.toNat + 1 + z) % 64 = 56 ∧
      (∀ z', (l.toNat + 1 + z') % 64 = 56 → z ≤ z') ∧
      padBytes l = [0x80#8] ++ List.replicate z 0x00#8 ++ be64Bytes (BitVec.ofNat 64 (8 * l.toNat))

/-- R32: the last eight bytes of the padding, read big-endian, are the exact message length in bits, for every L the engine
can hold. -/
def Obligations.LengthFieldIsTheExactBitLength : Prop :=
  ∀ l : Len, l.toNat ≤ 2 ^ 61 - 1 →
    ((padBytes l).drop ((padBytes l).length - 8)).foldl (fun n b => n * 256 + b.toNat) 0 = 8 * l.toNat

/-- R59: the tail is 64 bytes when r ≤ 55 and 128 when r ≥ 56, and then its second block is all padding. -/
def Obligations.TailIsOneBlockOrTwo : Prop :=
  ∀ (l : Len) (bs : List Byte), bs.length = l.toNat % 64 →
    (bs.length ≤ 55 → padZeros l = 55 - bs.length ∧ (bs ++ padBytes l).length = 64) ∧
      (56 ≤ bs.length → padZeros l = 119 - bs.length ∧ (bs ++ padBytes l).length = 128 ∧
        (bs ++ padBytes l).drop 64 = List.replicate 56 0x00#8 ++ be64Bytes (BitVec.ofNat 64 (8 * l.toNat)))

/-- R60: the empty message is one block, 0x80, 55 zero bytes and the zero length field, and its digest is the spec's. -/
def Obligations.EmptyMessageIsOneBlock : Prop :=
  padBytes 0#64 = [0x80#8] ++ List.replicate 55 0x00#8 ++ List.replicate 8 0x00#8 ∧
    messageBlocks [] = [padBytes 0#64] ∧
    hashOf [] = #v[0xe3b0c442#32, 0x98fc1c14#32, 0x9afbf4c8#32, 0x996fb924#32,
      0x27ae41e4#32, 0x649b934c#32, 0xa495991b#32, 0x7852b855#32]

/-- R61: a FINALIZE that completes in ABSORB leaves the mode DONE; in DONE no command but RESET changes anything, and ABSORB
and FINALIZE are answered WRONG_MODE. -/
def Obligations.DoneStaysUntilReset : Prop :=
  (∀ s t : State, s.mode = .absorb → exec .finalize s = .next t → t.mode = .done) ∧
  ∀ (i : Instr) (s : State), s.mode = .done → i ≠ .reset →
    (∃ r, exec i s = .next { s with resps := s.resps ++ [r] }) ∧
      (((∃ d, i = .absorb d) ∨ i = .finalize) → exec i s = .next { s with resps := s.resps ++ [0x0300#16] })

/-! ## Compression and primitives -/

/-- R64 and R65: the 64 schedule words, the first 16 read big-endian from the block and the rest by the recurrence. -/
def Obligations.ScheduleFollowsTheRecurrence : Prop :=
  ∀ blk : List Byte, blk.length = 64 →
    (schedule blk).length = 64 ∧
      (∀ t, t < 16 → ((schedule blk).getD t 0).toNat =
        (blk.getD (4 * t) 0).toNat * 2 ^ 24 + (blk.getD (4 * t + 1) 0).toNat * 2 ^ 16 +
          (blk.getD (4 * t + 2) 0).toNat * 2 ^ 8 + (blk.getD (4 * t + 3) 0).toNat) ∧
      ∀ t, 16 ≤ t → t < 64 → (schedule blk).getD t 0 =
        ssig1 ((schedule blk).getD (t - 2) 0) + (schedule blk).getD (t - 7) 0 +
          ssig0 ((schedule blk).getD (t - 15) 0) + (schedule blk).getD (t - 16) 0

/-- R66 to R69: COMPRESS runs rounds 0 to 63 in order on the working variables, each on what the one before left, and adds
the last ones to the state. `v t` are the working variables before round t. -/
def Obligations.CompressRunsSixtyFourRounds : Prop :=
  ∀ (blk : List Byte) (s : HashState), blk.length = 64 →
    ∃ v : Nat → WorkVars,
      v 0 = ⟨s[0], s[1], s[2], s[3], s[4], s[5], s[6], s[7]⟩ ∧
      (∀ t, t < 64 →
        let t1 := (v t).h + bsig1 (v t).e + ch (v t).e (v t).f (v t).g + kTable.getD t 0 + (schedule blk).getD t 0
        let t2 := bsig0 (v t).a + maj (v t).a (v t).b (v t).c
        v (t + 1) = ⟨t1 + t2, (v t).a, (v t).b, (v t).c, (v t).d + t1, (v t).e, (v t).f, (v t).g⟩) ∧
      compress blk s = #v[s[0] + (v 64).a, s[1] + (v 64).b, s[2] + (v 64).c, s[3] + (v 64).d,
        s[4] + (v 64).e, s[5] + (v 64).f, s[6] + (v 64).g, s[7] + (v 64).h]

/-- The words of IV and K are the first 32 bits of the fractional parts of the square roots of the first 8 primes and of the
cube roots of the first 64 (spec/10_state.md R15, R16). -/
def Obligations.ConstantsAreFractionsOfPrimeRoots : Prop :=
  ∃ ps : List Nat, ps.Pairwise (· < ·) ∧ ps.length = 64 ∧
    (∀ p, p ∈ ps ↔ p ≤ 311 ∧ 2 ≤ p ∧ ∀ d, d ∣ p → d = 1 ∨ d = p) ∧
    (∀ i, i < 8 → ∃ n, n ^ 2 ≤ ps.getD i 0 * 2 ^ 64 ∧ ps.getD i 0 * 2 ^ 64 < (n + 1) ^ 2 ∧
      (iv.toList.getD i 0).toNat = n % 2 ^ 32) ∧
    kTable.length = 64 ∧
    ∀ t, t < 64 → ∃ n, n ^ 3 ≤ ps.getD t 0 * 2 ^ 96 ∧ ps.getD t 0 * 2 ^ 96 < (n + 1) ^ 3 ∧
      (kTable.getD t 0).toNat = n % 2 ^ 32

/-- R80: a sum of u32 values is the exact integer sum mod 2^32. -/
def Obligations.SumsWrapModuloTwoToTheThirtyTwo : Prop :=
  ∀ xs : List Word, (xs.foldl add32 0#32).toNat = (xs.map BitVec.toNat).sum % 2 ^ 32

/-- R81 and R82: bit i of ROTR(x, n) is bit (i + n) mod 32 of x; SHR fills with zeros. -/
def Obligations.RotateWrapsAndShiftFillsWithZeros : Prop :=
  ∀ (x : Word) (n i : Nat), n ≤ 31 → i < 32 →
    (rotr x n).getLsbD i = x.getLsbD ((i + n) % 32) ∧
      (shr x n).getLsbD i = if i + n < 32 then x.getLsbD (i + n) else false

/-- R83 and R84, bit by bit: where x is 1 Ch takes y, where it is 0 it takes z; Maj takes the value of at least two. -/
def Obligations.ChoiceAndMajorityBitByBit : Prop :=
  ∀ (x y z : Word) (i : Nat),
    (ch x y z).getLsbD i = (if x.getLsbD i then y.getLsbD i else if i < 32 then z.getLsbD i else false) ∧
      (maj x y z).getLsbD i = decide (2 ≤ ([x.getLsbD i, y.getLsbD i, z.getLsbD i].filter id).length)

/-- R85 to R88, bit by bit: the rotate and shift amounts of Σ0, Σ1, σ0 and σ1. -/
def Obligations.SigmaFunctionsBitByBit : Prop :=
  ∀ (x : Word) (i : Nat), i < 32 →
    (bsig0 x).getLsbD i = ((x.getLsbD ((i + 2) % 32) ^^ x.getLsbD ((i + 13) % 32)) ^^ x.getLsbD ((i + 22) % 32)) ∧
      (bsig1 x).getLsbD i = ((x.getLsbD ((i + 6) % 32) ^^ x.getLsbD ((i + 11) % 32)) ^^ x.getLsbD ((i + 25) % 32)) ∧
      (ssig0 x).getLsbD i = ((x.getLsbD ((i + 7) % 32) ^^ x.getLsbD ((i + 18) % 32)) ^^ x.getLsbD (i + 3)) ∧
      (ssig1 x).getLsbD i = ((x.getLsbD ((i + 17) % 32) ^^ x.getLsbD ((i + 19) % 32)) ^^ x.getLsbD (i + 10))

/-! ## The digest and the status view -/

/-- R33, R73: the digest is 32 bytes, word-major, most significant byte first within each word. -/
def Obligations.DigestIsWordMajorBigEndian : Prop :=
  ∀ hs : HashState, (digestBytes hs).length = 32 ∧
    ∀ i j, i < 8 → j < 4 → (digestBytes hs)[4 * i + j]? = some ((hs.toList.getD i 0).extractLsb' (24 - 8 * j) 8)

/-- R75: RDDIG answers digest byte i in DONE for i ≤ 31 and BAD_INDEX above, WRONG_MODE in ABSORB and IN_ERROR in ERROR;
it changes nothing but the response port. -/
def Obligations.RddigReadsADigestByte : Prop :=
  ∀ (i : Byte) (s : State), encode (.rddig i) = 0x04#8 ++ i ∧
    (s.mode = .done → i.toNat ≤ 31 → exec (.rddig i) s = .next { s with resps := s.resps ++
      [0x00#8 ++ (s.hs.toList.getD (i.toNat / 4) 0).extractLsb' (24 - 8 * (i.toNat % 4)) 8] }) ∧
    (s.mode = .done → 31 < i.toNat → exec (.rddig i) s = .next { s with resps := s.resps ++ [0x0400#16] }) ∧
    (s.mode = .absorb → exec (.rddig i) s = .next { s with resps := s.resps ++ [0x0300#16] }) ∧
    (s.mode = .error → exec (.rddig i) s = .next { s with resps := s.resps ++ [0x0200#16] })

/-- R76 with R74: RDHEX answers, in DONE for k ≤ 63, the lowercase ASCII character of the high nibble (k even) or the low
nibble (k odd) of digest byte k div 2, and otherwise BAD_INDEX, WRONG_MODE or IN_ERROR. -/
def Obligations.RdhexReadsAHexCharacter : Prop :=
  ∀ (k : Byte) (s : State), encode (.rdhex k) = 0x05#8 ++ k ∧
    (s.mode = .done → k.toNat ≤ 63 →
      ∃ (d c : Byte) (n : Nat), (digestBytes s.hs)[k.toNat / 2]? = some d ∧
        n = (if k.toNat % 2 = 0 then d.toNat / 16 else d.toNat % 16) ∧
        c.toNat = (if n ≤ 9 then 0x30 + n else 0x61 + (n - 10)) ∧
        exec (.rdhex k) s = .next { s with resps := s.resps ++ [0x00#8 ++ c] }) ∧
    (s.mode = .done → 63 < k.toNat → exec (.rdhex k) s = .next { s with resps := s.resps ++ [0x0400#16] }) ∧
    (s.mode = .absorb → exec (.rdhex k) s = .next { s with resps := s.resps ++ [0x0300#16] }) ∧
    (s.mode = .error → exec (.rdhex k) s = .next { s with resps := s.resps ++ [0x0200#16] })

/-- R77 with R25: RDSTAT answers, in every mode, MODE, L mod 64, ERRCODE, or a byte of L most significant first, and
BAD_INDEX above selector 10. -/
def Obligations.RdstatReadsTheStatusView : Prop :=
  ∀ (sel : Byte) (s : State), encode (.rdstat sel) = 0x06#8 ++ sel ∧
    (sel.toNat ≤ 10 → ∃ b : Byte,
      exec (.rdstat sel) s = .next { s with resps := s.resps ++ [0x00#8 ++ b] } ∧
      (sel.toNat = 0 → b.toNat = match s.mode with | .absorb => 0 | .done => 1 | .error => 2) ∧
      (sel.toNat = 1 → b.toNat = s.len.toNat % 64) ∧
      (sel.toNat = 2 → b = s.errcode) ∧
      (3 ≤ sel.toNat → b.toNat = s.len.toNat / 2 ^ (8 * (10 - sel.toNat)) % 256)) ∧
    (10 < sel.toNat → exec (.rdstat sel) s = .next { s with resps := s.resps ++ [0x0400#16] })

/-- NOP and the three read commands change nothing but the response port, and repeated they give the same answer
(spec/20_memory.md R36). -/
def Obligations.ReadsHaveNoSideEffects : Prop :=
  ∀ (i : Instr) (s : State),
    (i = .nop ∨ (∃ n, i = .rddig n) ∨ (∃ n, i = .rdhex n) ∨ ∃ n, i = .rdstat n) →
      ∃ r : RespWord, exec i s = .next { s with resps := s.resps ++ [r] } ∧
        exec i { s with resps := s.resps ++ [r] } = .next { s with resps := s.resps ++ [r, r] }

/-- R100: no digest byte or hex character is given out unless MODE is DONE. Read OK implies DONE; and outside DONE no
response, and nothing else but the Hash State itself, depends on the Hash State. -/
def Obligations.NoDigestOutsideDone : Prop :=
  (∀ (i : Instr) (s t : State) (r : RespWord), ((∃ n, i = .rddig n) ∨ ∃ n, i = .rdhex n) → exec i s = .next t →
    t.resps = s.resps ++ [r] → r.extractLsb' 8 8 = 0x00#8 → s.mode = .done) ∧
  ∀ (i : Instr) (s t : State) (h : HashState), s.mode ≠ .done → exec i s = .next t →
    ∃ h' : HashState, exec i { s with hs := h } = .next { t with hs := h' }

/-! ## Errors -/

/-- R91: a fatal error sets MODE to ERROR and ERRCODE to its code and leaves the rest as it stood; from then on RDDIG and
RDHEX are answered IN_ERROR and L stays readable. -/
def Obligations.FatalErrorEntersErrorMode : Prop :=
  ∀ (i : Instr) (s t : State), exec i s = .next t →
    codeByPriority i s ∈ [RespCode.lengthOverflow, .internal] →
      t = { s with
        mode := .error, errcode := (codeByPriority i s).code,
        resps := s.resps ++ [respWord (codeByPriority i s) 0x00#8] } ∧
        (∀ n, exec (.rddig n) t = .next { t with resps := t.resps ++ [0x0200#16] }) ∧
        (∀ n, exec (.rdhex n) t = .next { t with resps := t.resps ++ [0x0200#16] }) ∧
        ∀ sel : Byte, 3 ≤ sel.toNat → sel.toNat ≤ 10 → ∃ b : Byte,
          b.toNat = s.len.toNat / 2 ^ (8 * (10 - sel.toNat)) % 256 ∧
          exec (.rdstat sel) t = .next { t with resps := t.resps ++ [0x00#8 ++ b] }

/-- R93: INTERNAL cannot be reached: no command answers it, from any state; and a fold of a block that is not 64 bytes has
no value. -/
def Obligations.InternalErrorIsUnreachable : Prop :=
  (∀ (i : Instr) (s t : State) (r : RespWord), exec i s = .next t → t.resps = s.resps ++ [r] →
    r.extractLsb' 8 8 ≠ 0x06#8) ∧
  ∀ (blk : List Byte) (hs : HashState), blk.length ≠ 64 → foldBlock blk hs = none

/-- R99: in ERROR only RESET changes anything, and it opens a new computation; only NOP, RESET and RDSTAT are performed, and
no second fatal error can occur before RESET. -/
def Obligations.OnlyResetLeavesError : Prop :=
  ∀ (i : Instr) (s : State), s.mode = .error →
    (i ≠ .reset → ∃ r : RespWord, exec i s = .next { s with resps := s.resps ++ [r] } ∧
      r.extractLsb' 8 8 ≠ 0x05#8 ∧ r.extractLsb' 8 8 ≠ 0x06#8 ∧
      (r.extractLsb' 8 8 = 0x00#8 → i = .nop ∨ ∃ n, i = .rdstat n)) ∧
      (i = .reset → ∃ t, exec i s = .next t ∧ t.mode = .absorb ∧ t.hs = iv ∧ t.len = 0#64 ∧ t.buf = [])

/-! ## Invariants and whole computations -/

/-- The invariant holds after power-on reset. -/
def Obligations.InvariantHoldsAtReset : Prop :=
  State.reset.Inv

/-- Every step keeps the invariant: BUF holds exactly the bytes below BUFCNT (none in DONE), L ≤ 2^61 − 1, ERRCODE agrees
with MODE, and every response word is one the engine may give (spec/10_state.md R19 to R23; spec/40_block_assembler.md
R55 to R57; spec/60_exceptions.md R89). -/
def Obligations.EveryStepKeepsTheInvariant : Prop :=
  ∀ s t : State, s.Inv → step s = .next t → t.Inv

/-- From every state that meets the invariant the next step completes: the engine never stops with a fault. -/
def Obligations.InvariantStatesNeverStop : Prop :=
  ∀ s : State, s.Inv → ∃ t, step s = .next t

/-- Every step keeps BUF in its canonical form, from every state in which it has it. -/
def Obligations.EveryStepKeepsTheBufferCanonical : Prop :=
  ∀ s t : State, s.buf.wf → step s = .next t → t.buf.wf

/-- What writes the Hash State: RESET, with IV, and a fold of blocks of exactly 64 bytes by ABSORB or FINALIZE
(spec/10_state.md R14). -/
def Obligations.HashStateIsWrittenByResetAndFoldOnly : Prop :=
  ∀ (i : Instr) (s t : State), exec i s = .next t →
    t.hs = s.hs ∨ (i = .reset ∧ t.hs = iv) ∨
      (s.mode = .absorb ∧ ((∃ d, i = .absorb d) ∨ i = .finalize) ∧
        ∃ blks : List (List Byte), (blks.length = 1 ∨ (blks.length = 2 ∧ i = .finalize)) ∧
          (∀ b ∈ blks, b.length = 64) ∧ t.hs = blks.foldl (fun h b => compress b h) s.hs)

/-- R20: what writes L: RESET writes 0, an accepted ABSORB adds 1 without wrapping, and nothing else changes it. -/
def Obligations.LengthCountsAcceptedBytes : Prop :=
  ∀ (i : Instr) (s t : State), s.len.toNat ≤ 2 ^ 61 - 1 → exec i s = .next t →
    t.len.toNat ≤ 2 ^ 61 - 1 ∧
      t.len.toNat = (match i with
        | .reset => 0
        | .absorb _ => if codeByPriority i s = .ok then s.len.toNat + 1 else s.len.toNat
        | _ => s.len.toNat)

/-- The blocks of a message are the consecutive 64-byte slices of `M ‖ PAD(L)`: floor(L/64) of them, then one or two
(spec/40_block_assembler.md R62). -/
def Obligations.MessageBlocksAreSlicesOfThePaddedMessage : Prop :=
  ∀ msg : List Byte, msg.length ≤ 2 ^ 61 - 1 →
    (messageBlocks msg).flatten = msg ++ padBytes (BitVec.ofNat 64 msg.length) ∧
      (∀ b ∈ messageBlocks msg, b.length = 64) ∧
      (messageBlocks msg).length = msg.length / 64 + (if msg.length % 64 ≤ 55 then 1 else 2)

/-- R79: from every state, whatever happened before, `RESET; ABSORB m0; …; ABSORB m(L−1); FINALIZE` reaches DONE with the
Hash State that folding the blocks of `M ‖ PAD(L)` from IV gives, every command answered `0x0000`; so the 32 digest bytes
and the 64 hex characters depend on the message alone. -/
def Obligations.DigestIsAFunctionOfTheMessage : Prop :=
  ∀ (msg : List Byte) (s : State), msg.length ≤ 2 ^ 61 - 1 →
    execAll ([.reset] ++ msg.map .absorb ++ [.finalize]) s = .next { s with
      hs := hashOf msg, buf := [], len := BitVec.ofNat 64 msg.length, mode := .done, errcode := 0x00#8,
      resps := s.resps ++ List.replicate (msg.length + 2) 0x0000#16 } ∧
    (digestBytes (hashOf msg)).length = 32 ∧ (hexChars (hashOf msg)).length = 64

/-- Engines share nothing: a step of engine k changes engine k alone, and does what it does alone
(spec/60_exceptions.md R104). -/
def Obligations.EnginesDoNotInteract : Prop :=
  ∀ (p q : Platform) (k : Nat), Platform.stepAt p k = some (.next q) →
    q.length = p.length ∧ (∀ j, j ≠ k → q[j]? = p[j]?) ∧
      ∃ s t, p[k]? = some s ∧ step s = .next t ∧ q[k]? = some t
end

