-- ==== Sys2Proof/Laws/Compression.lean ====
section
/-! SUPPORT. The laws of the schedule, of the fold and of the padding: lengths, what is kept, and when a fold answers. -/

namespace Sys2Proof.Machine

/-- A block of whole words gives a quarter as many words. -/
theorem blockWords_length : ∀ (n : Nat) (blk : List Byte), blk.length = 4 * n → (blockWords blk).length = n
  | 0, blk, h => by simp_all [blockWords]
  | n + 1, [], h => by simp at h
  | n + 1, [_], h => by simp at h; omega
  | n + 1, [_, _], h => by simp at h; omega
  | n + 1, [_, _, _], h => by simp at h; omega
  | n + 1, _ :: _ :: _ :: _ :: rest, h => by
    simp only [List.length_cons] at h
    simp [blockWords, blockWords_length n rest (by omega)]

/-- `BE32` as a number (spec/00_scope.md R9). -/
theorem be32_toNat (b0 b1 b2 b3 : Byte) :
    (be32 b0 b1 b2 b3).toNat = b0.toNat * 2 ^ 24 + b1.toNat * 2 ^ 16 + b2.toNat * 2 ^ 8 + b3.toNat := by
  have := b1.isLt
  have := b2.isLt
  have := b3.isLt
  simp only [be32, BitVec.toNat_append]
  rw [← Nat.shiftLeft_add_eq_or_of_lt (by omega), ← Nat.shiftLeft_add_eq_or_of_lt (by omega),
    ← Nat.shiftLeft_add_eq_or_of_lt (by omega)]
  simp only [Nat.shiftLeft_eq]
  omega

/-- Word t of a block is the big-endian reading of bytes 4t to 4t+3. -/
theorem blockWords_getD : ∀ (t : Nat) (blk : List Byte), 4 * t + 3 < blk.length → (blockWords blk).getD t 0 =
    be32 (blk.getD (4 * t) 0) (blk.getD (4 * t + 1) 0) (blk.getD (4 * t + 2) 0) (blk.getD (4 * t + 3) 0)
  | _, [], h => by simp at h
  | _, [_], h => by simp at h
  | _, [_, _], h => by simp at h
  | _, [_, _, _], h => by simp at h
  | 0, _ :: _ :: _ :: _ :: _, _ => by simp [blockWords]
  | t + 1, _ :: _ :: _ :: _ :: rest, h => by
    have := blockWords_getD t rest (by simp at h; omega)
    simpa [blockWords, Nat.mul_add] using this

@[simp] theorem extendSchedule_zero (ws : List Word) : extendSchedule 0 ws = ws := rfl

theorem extendSchedule_succ (n : Nat) (ws : List Word) :
    extendSchedule (n + 1) ws = extendSchedule n (ws ++ [scheduleWord ws ws.length]) := rfl

/-- The recurrence adds one word a time. -/
@[simp] theorem extendSchedule_length (n : Nat) (ws : List Word) : (extendSchedule n ws).length = ws.length + n := by
  induction n generalizing ws with
  | zero => rfl
  | succ n ih => rw [extendSchedule_succ, ih]; simp; omega

/-- The words already there stay first. -/
theorem extendSchedule_extends (n : Nat) (ws : List Word) : ∃ more, extendSchedule n ws = ws ++ more := by
  induction n generalizing ws with
  | zero => exact ⟨[], by simp⟩
  | succ n ih =>
    obtain ⟨more, h⟩ := ih (ws ++ [scheduleWord ws ws.length])
    exact ⟨scheduleWord ws ws.length :: more, by rw [extendSchedule_succ, h]; simp⟩

/-- A schedule has 64 words (spec/10_state.md R17). -/
theorem schedule_length {blk : List Byte} (h : blk.length = 64) : (schedule blk).length = 64 := by
  rw [schedule, extendSchedule_length, blockWords_length 16 blk h]

/-- There are 64 round constants (spec/10_state.md R16). -/
theorem kTable_length : kTable.length = 64 := by rfl

/-- A fold of a 64-byte block answers COMPRESS of it. -/
theorem foldBlock_of_length {blk : List Byte} (h : blk.length = 64) (hs : HashState) :
    foldBlock blk hs = some (compress blk hs) := if_pos h

/-- A fold answers of a 64-byte block only, and then COMPRESS of it. -/
theorem foldBlock_eq_some {blk : List Byte} {hs h : HashState} :
    foldBlock blk hs = some h ↔ blk.length = 64 ∧ h = compress blk hs := by
  unfold foldBlock Config.blockBytes
  split <;> simp_all [eq_comm]

@[simp] theorem be64Bytes_length (v : Len) : (be64Bytes v).length = 8 := rfl

@[simp] theorem be32Bytes_length (w : Word) : (be32Bytes w).length = 4 := rfl

/-- `z = (55 − L) mod 64` as a natural number. -/
theorem padZeros_eq (l : Len) : padZeros l = (119 - l.toNat % 64) % 64 := by
  unfold padZeros; omega

@[simp] theorem padBytes_length (l : Len) : (padBytes l).length = padZeros l + 9 := by
  simp [padBytes]

/-- The tail of FINALIZE is one block or two (spec/40_block_assembler.md R59). -/
theorem tail_length {l : Len} {bs : List Byte} (h : bs.length = l.toNat % 64) :
    (bs ++ padBytes l).length = if l.toNat % 64 ≤ 55 then 64 else 128 := by
  rw [List.length_append, h, padBytes_length, padZeros_eq]
  split <;> omega

/-- The folds of a tail always answer: INTERNAL is unreachable in FINALIZE (spec/60_exceptions.md R93). -/
theorem foldTail_one {tail : List Byte} (h : tail.length = 64) (hs : HashState) :
    foldTail tail hs = some (compress tail hs) := by
  have : tail.take 64 = tail := List.take_of_length_le (by omega)
  simp [foldTail, this, foldBlock_of_length h, h]

theorem foldTail_two {tail : List Byte} (h : tail.length = 128) (hs : HashState) :
    foldTail tail hs = some (compress (tail.drop 64) (compress (tail.take 64) hs)) := by
  have h1 : (tail.take 64).length = 64 := by simp [h]
  have h2 : (tail.drop 64).length = 64 := by simp [h]
  simp [foldTail, foldBlock_of_length h1, foldBlock_of_length h2, h]

/-- The digest is 32 bytes (spec/42_accumulator.md R73). -/
@[simp] theorem digestBytes_length (hs : HashState) : (digestBytes hs).length = 32 := by
  simp [digestBytes, List.length_flatMap]

/-- The hex string is 64 characters (spec/42_accumulator.md R74). -/
@[simp] theorem hexChars_length (hs : HashState) : (hexChars hs).length = 64 := by
  simp [hexChars, List.length_flatMap]

end Sys2Proof.Machine
end

