-- ==== Sys2Proof/Laws/Encoding.lean ====
section
/-! SUPPORT. The fields of an encoded command word. -/

namespace Sys2Proof

/-- Every command is well formed: its operand's type is `Byte`. -/
theorem Instr.wf_all (i : Instr) : i.wf = true := by
  simp only [Instr.wf, imm8Ok, decide_eq_true_eq]
  exact i.opnd.isLt

/-- A word is its two fields (spec/30_encoding.md R45). -/
theorem word_fields (w : CmdWord) : w = opcField w ++ opndField w := by
  apply BitVec.eq_of_getLsbD_eq
  intro k hk
  rw [BitVec.getLsbD_append]
  simp only [opcField, opndField, BitVec.getLsbD_extractLsb']
  split
  · simp_all
  · rw [decide_eq_true (by omega), Bool.true_and]
    congr 1
    omega

/-- The fixed bits of a row hold the opcode alone, so the operand field of the word is the operand. -/
theorem opndField_or {f : CmdWord} {d : Byte} (h : opndField f = 0#8) : opndField (f ||| d.setWidth 16) = d := by
  apply BitVec.eq_of_getLsbD_eq
  intro k hk
  have hf := congrArg (fun x : Byte => x.getLsbD k) h
  have hk' : k < 16 := by omega
  simp only [opndField, BitVec.getLsbD_extractLsb', hk, decide_true, Bool.true_and, Nat.zero_add,
    BitVec.getLsbD_zero] at hf
  simp only [opndField, BitVec.getLsbD_extractLsb', hk, decide_true, Bool.true_and, Nat.zero_add, BitVec.getLsbD_or,
    hf, BitVec.getLsbD_setWidth, hk', Bool.false_or]

/-- The opcode field of the word is that of the row's fixed bits. -/
theorem opcField_or (f : CmdWord) (d : Byte) : opcField (f ||| d.setWidth 16) = opcField f := by
  apply BitVec.eq_of_getLsbD_eq
  intro k hk
  simp [opcField]

/-- The opcode field of a word built from two fields. -/
@[simp] theorem opcField_append (a b : Byte) : opcField (a ++ b) = a := by
  apply BitVec.eq_of_getLsbD_eq
  intro k hk
  rw [opcField, BitVec.getLsbD_extractLsb', BitVec.getLsbD_append, decide_eq_true hk, Bool.true_and,
    if_neg (by omega), Nat.add_sub_cancel_left]

/-- The operand field of a word built from two fields. -/
@[simp] theorem opndField_append (a b : Byte) : opndField (a ++ b) = b := by
  apply BitVec.eq_of_getLsbD_eq
  intro k hk
  rw [opndField, BitVec.getLsbD_extractLsb', BitVec.getLsbD_append, decide_eq_true hk, Bool.true_and,
    if_pos (by omega), Nat.zero_add]

/-- Two words with the same fields are the same word. -/
theorem word_ext {w v : CmdWord} (h1 : opcField w = opcField v) (h2 : opndField w = opndField v) : w = v := by
  rw [word_fields w, word_fields v, h1, h2]

/-- The mask of a row whose operand is free keeps the opcode field. -/
theorem and_opcMask (w : CmdWord) : w &&& 0xFF00#16 = opcField w ++ 0#8 := by
  conv_lhs => rw [word_fields w, show (0xFF00#16 : BitVec (8 + 8)) = 0xFF#8 ++ 0x00#8 from rfl, BitVec.and_append]
  congr 1
  · exact BitVec.and_allOnes
  · exact BitVec.and_zero

/-- A row whose operand is free selects the words of its opcode (spec/30_encoding.md R47). -/
theorem and_opcMask_eq_iff {w f : CmdWord} (hf : opndField f = 0#8) :
    w &&& 0xFF00#16 = f ↔ opcField w = opcField f := by
  rw [and_opcMask]
  constructor
  · intro h; rw [← h, opcField_append]
  · intro h; exact word_ext (by rw [opcField_append, h]) (by rw [opndField_append, hf])

/-- A row whose operand is part of the match selects one word (spec/30_encoding.md R47, R48). -/
theorem and_fullMask (w : CmdWord) : w &&& 0xFFFF#16 = w := BitVec.and_allOnes

/-- A row's fixed bits leave the operand field 0. -/
theorem opndField_row (i : Instr) : opndField i.row.fixedBits = 0#8 := by
  cases i <;> simp only [Instr.row] <;> decide

/-- A field is the number it holds. -/
theorem opcField_of_toNat {w : CmdWord} {k : Nat} (h : (opcField w).toNat = k) : opcField w = BitVec.ofNat 8 k := by
  rw [← h]; simp

/-- The fields of an encoded command: its row's opcode and its operand (spec/30_encoding.md R45, R47). -/
theorem encode_fields (i : Instr) : opcField (encode i) = opcField i.row.fixedBits ∧ opndField (encode i) = i.opnd :=
  ⟨opcField_or _ _, opndField_or (opndField_row i)⟩

end Sys2Proof
end

