-- ==== Sys2Proof/Laws/State.lean ====
section
/-! SUPPORT. Reading a field after an update: one lemma per field per update, each true by rfl. -/

namespace Sys2Proof.Machine

@[simp] theorem State.setHs_hs (s : State) (h : HashState) : (s.setHs h).hs = h := rfl
@[simp] theorem State.setHs_buf (s : State) (h : HashState) : (s.setHs h).buf = s.buf := rfl
@[simp] theorem State.setHs_len (s : State) (h : HashState) : (s.setHs h).len = s.len := rfl
@[simp] theorem State.setHs_mode (s : State) (h : HashState) : (s.setHs h).mode = s.mode := rfl
@[simp] theorem State.setHs_errcode (s : State) (h : HashState) : (s.setHs h).errcode = s.errcode := rfl
@[simp] theorem State.setHs_cmds (s : State) (h : HashState) : (s.setHs h).cmds = s.cmds := rfl
@[simp] theorem State.setHs_resps (s : State) (h : HashState) : (s.setHs h).resps = s.resps := rfl

@[simp] theorem State.setBuf_hs (s : State) (m : Memory) : (s.setBuf m).hs = s.hs := rfl
@[simp] theorem State.setBuf_buf (s : State) (m : Memory) : (s.setBuf m).buf = m := rfl
@[simp] theorem State.setBuf_len (s : State) (m : Memory) : (s.setBuf m).len = s.len := rfl
@[simp] theorem State.setBuf_mode (s : State) (m : Memory) : (s.setBuf m).mode = s.mode := rfl
@[simp] theorem State.setBuf_errcode (s : State) (m : Memory) : (s.setBuf m).errcode = s.errcode := rfl
@[simp] theorem State.setBuf_cmds (s : State) (m : Memory) : (s.setBuf m).cmds = s.cmds := rfl
@[simp] theorem State.setBuf_resps (s : State) (m : Memory) : (s.setBuf m).resps = s.resps := rfl

@[simp] theorem State.setLen_hs (s : State) (l : Len) : (s.setLen l).hs = s.hs := rfl
@[simp] theorem State.setLen_buf (s : State) (l : Len) : (s.setLen l).buf = s.buf := rfl
@[simp] theorem State.setLen_len (s : State) (l : Len) : (s.setLen l).len = l := rfl
@[simp] theorem State.setLen_mode (s : State) (l : Len) : (s.setLen l).mode = s.mode := rfl
@[simp] theorem State.setLen_errcode (s : State) (l : Len) : (s.setLen l).errcode = s.errcode := rfl
@[simp] theorem State.setLen_cmds (s : State) (l : Len) : (s.setLen l).cmds = s.cmds := rfl
@[simp] theorem State.setLen_resps (s : State) (l : Len) : (s.setLen l).resps = s.resps := rfl

@[simp] theorem State.setMode_hs (s : State) (m : Mode) : (s.setMode m).hs = s.hs := rfl
@[simp] theorem State.setMode_buf (s : State) (m : Mode) : (s.setMode m).buf = s.buf := rfl
@[simp] theorem State.setMode_len (s : State) (m : Mode) : (s.setMode m).len = s.len := rfl
@[simp] theorem State.setMode_mode (s : State) (m : Mode) : (s.setMode m).mode = m := rfl
@[simp] theorem State.setMode_errcode (s : State) (m : Mode) : (s.setMode m).errcode = s.errcode := rfl
@[simp] theorem State.setMode_cmds (s : State) (m : Mode) : (s.setMode m).cmds = s.cmds := rfl
@[simp] theorem State.setMode_resps (s : State) (m : Mode) : (s.setMode m).resps = s.resps := rfl

@[simp] theorem State.setErrcode_hs (s : State) (e : Byte) : (s.setErrcode e).hs = s.hs := rfl
@[simp] theorem State.setErrcode_buf (s : State) (e : Byte) : (s.setErrcode e).buf = s.buf := rfl
@[simp] theorem State.setErrcode_len (s : State) (e : Byte) : (s.setErrcode e).len = s.len := rfl
@[simp] theorem State.setErrcode_mode (s : State) (e : Byte) : (s.setErrcode e).mode = s.mode := rfl
@[simp] theorem State.setErrcode_errcode (s : State) (e : Byte) : (s.setErrcode e).errcode = e := rfl
@[simp] theorem State.setErrcode_cmds (s : State) (e : Byte) : (s.setErrcode e).cmds = s.cmds := rfl
@[simp] theorem State.setErrcode_resps (s : State) (e : Byte) : (s.setErrcode e).resps = s.resps := rfl

@[simp] theorem State.setCmds_hs (s : State) (c : List CmdWord) : (s.setCmds c).hs = s.hs := rfl
@[simp] theorem State.setCmds_buf (s : State) (c : List CmdWord) : (s.setCmds c).buf = s.buf := rfl
@[simp] theorem State.setCmds_len (s : State) (c : List CmdWord) : (s.setCmds c).len = s.len := rfl
@[simp] theorem State.setCmds_mode (s : State) (c : List CmdWord) : (s.setCmds c).mode = s.mode := rfl
@[simp] theorem State.setCmds_errcode (s : State) (c : List CmdWord) : (s.setCmds c).errcode = s.errcode := rfl
@[simp] theorem State.setCmds_cmds (s : State) (c : List CmdWord) : (s.setCmds c).cmds = c := rfl
@[simp] theorem State.setCmds_resps (s : State) (c : List CmdWord) : (s.setCmds c).resps = s.resps := rfl

@[simp] theorem State.pushResp_hs (s : State) (r : RespWord) : (s.pushResp r).hs = s.hs := rfl
@[simp] theorem State.pushResp_buf (s : State) (r : RespWord) : (s.pushResp r).buf = s.buf := rfl
@[simp] theorem State.pushResp_len (s : State) (r : RespWord) : (s.pushResp r).len = s.len := rfl
@[simp] theorem State.pushResp_mode (s : State) (r : RespWord) : (s.pushResp r).mode = s.mode := rfl
@[simp] theorem State.pushResp_errcode (s : State) (r : RespWord) : (s.pushResp r).errcode = s.errcode := rfl
@[simp] theorem State.pushResp_cmds (s : State) (r : RespWord) : (s.pushResp r).cmds = s.cmds := rfl
@[simp] theorem State.pushResp_resps (s : State) (r : RespWord) : (s.pushResp r).resps = s.resps ++ [r] := rfl

@[simp] theorem State.respond_hs (s : State) (d : Byte) : (s.respond d).hs = s.hs := rfl
@[simp] theorem State.respond_buf (s : State) (d : Byte) : (s.respond d).buf = s.buf := rfl
@[simp] theorem State.respond_len (s : State) (d : Byte) : (s.respond d).len = s.len := rfl
@[simp] theorem State.respond_mode (s : State) (d : Byte) : (s.respond d).mode = s.mode := rfl
@[simp] theorem State.respond_errcode (s : State) (d : Byte) : (s.respond d).errcode = s.errcode := rfl
@[simp] theorem State.respond_cmds (s : State) (d : Byte) : (s.respond d).cmds = s.cmds := rfl
@[simp] theorem State.respond_resps (s : State) (d : Byte) : (s.respond d).resps = s.resps ++ [respWord .ok d] := rfl

@[simp] theorem State.raiseReject_hs (s : State) (c : RespCode) : (s.raiseReject c).hs = s.hs := rfl
@[simp] theorem State.raiseReject_buf (s : State) (c : RespCode) : (s.raiseReject c).buf = s.buf := rfl
@[simp] theorem State.raiseReject_len (s : State) (c : RespCode) : (s.raiseReject c).len = s.len := rfl
@[simp] theorem State.raiseReject_mode (s : State) (c : RespCode) : (s.raiseReject c).mode = s.mode := rfl
@[simp] theorem State.raiseReject_errcode (s : State) (c : RespCode) : (s.raiseReject c).errcode = s.errcode := rfl
@[simp] theorem State.raiseReject_cmds (s : State) (c : RespCode) : (s.raiseReject c).cmds = s.cmds := rfl
@[simp] theorem State.raiseReject_resps (s : State) (c : RespCode) : (s.raiseReject c).resps = s.resps ++ [respWord c 0x00#8] := rfl

@[simp] theorem State.raiseFatal_hs (s : State) (c : RespCode) : (s.raiseFatal c).hs = s.hs := rfl
@[simp] theorem State.raiseFatal_buf (s : State) (c : RespCode) : (s.raiseFatal c).buf = s.buf := rfl
@[simp] theorem State.raiseFatal_len (s : State) (c : RespCode) : (s.raiseFatal c).len = s.len := rfl
@[simp] theorem State.raiseFatal_mode (s : State) (c : RespCode) : (s.raiseFatal c).mode = .error := rfl
@[simp] theorem State.raiseFatal_errcode (s : State) (c : RespCode) : (s.raiseFatal c).errcode = c.code := rfl
@[simp] theorem State.raiseFatal_cmds (s : State) (c : RespCode) : (s.raiseFatal c).cmds = s.cmds := rfl
@[simp] theorem State.raiseFatal_resps (s : State) (c : RespCode) : (s.raiseFatal c).resps = s.resps ++ [respWord c 0x00#8] := rfl

@[simp] theorem State.clearBuf_hs (s : State) : (s.clearBuf).hs = s.hs := rfl
@[simp] theorem State.clearBuf_buf (s : State) : (s.clearBuf).buf = [] := rfl
@[simp] theorem State.clearBuf_len (s : State) : (s.clearBuf).len = s.len := rfl
@[simp] theorem State.clearBuf_mode (s : State) : (s.clearBuf).mode = s.mode := rfl
@[simp] theorem State.clearBuf_errcode (s : State) : (s.clearBuf).errcode = s.errcode := rfl
@[simp] theorem State.clearBuf_cmds (s : State) : (s.clearBuf).cmds = s.cmds := rfl
@[simp] theorem State.clearBuf_resps (s : State) : (s.clearBuf).resps = s.resps := rfl

@[simp] theorem State.newComputation_hs (s : State) : (s.newComputation).hs = iv := rfl
@[simp] theorem State.newComputation_buf (s : State) : (s.newComputation).buf = [] := rfl
@[simp] theorem State.newComputation_len (s : State) : (s.newComputation).len = 0#64 := rfl
@[simp] theorem State.newComputation_mode (s : State) : (s.newComputation).mode = .absorb := rfl
@[simp] theorem State.newComputation_errcode (s : State) : (s.newComputation).errcode = 0x00#8 := rfl
@[simp] theorem State.newComputation_cmds (s : State) : (s.newComputation).cmds = s.cmds := rfl
@[simp] theorem State.newComputation_resps (s : State) : (s.newComputation).resps = s.resps := rfl

@[simp] theorem State.send_hs (s : State) (w : CmdWord) : (s.send w).hs = s.hs := rfl
@[simp] theorem State.send_buf (s : State) (w : CmdWord) : (s.send w).buf = s.buf := rfl
@[simp] theorem State.send_len (s : State) (w : CmdWord) : (s.send w).len = s.len := rfl
@[simp] theorem State.send_mode (s : State) (w : CmdWord) : (s.send w).mode = s.mode := rfl
@[simp] theorem State.send_errcode (s : State) (w : CmdWord) : (s.send w).errcode = s.errcode := rfl
@[simp] theorem State.send_cmds (s : State) (w : CmdWord) : (s.send w).cmds = s.cmds ++ [w] := rfl
@[simp] theorem State.send_resps (s : State) (w : CmdWord) : (s.send w).resps = s.resps := rfl

@[simp] theorem State.setHs_bufCnt (s : State) (h : HashState) : (s.setHs h).bufCnt = s.bufCnt := rfl
@[simp] theorem State.setBuf_bufCnt (s : State) (m : Memory) : (s.setBuf m).bufCnt = s.bufCnt := rfl
@[simp] theorem State.setLen_bufCnt (s : State) (l : Len) : (s.setLen l).bufCnt = (l.toNat % 64) := rfl
@[simp] theorem State.setMode_bufCnt (s : State) (m : Mode) : (s.setMode m).bufCnt = s.bufCnt := rfl
@[simp] theorem State.setErrcode_bufCnt (s : State) (e : Byte) : (s.setErrcode e).bufCnt = s.bufCnt := rfl
@[simp] theorem State.setCmds_bufCnt (s : State) (c : List CmdWord) : (s.setCmds c).bufCnt = s.bufCnt := rfl
@[simp] theorem State.pushResp_bufCnt (s : State) (r : RespWord) : (s.pushResp r).bufCnt = s.bufCnt := rfl

@[simp] theorem State.setHs_readByte (s : State) (h : HashState) (a : Nat) : (s.setHs h).readByte a = s.readByte a := rfl
@[simp] theorem State.setLen_readByte (s : State) (l : Len) (a : Nat) : (s.setLen l).readByte a = s.readByte a := rfl
@[simp] theorem State.setMode_readByte (s : State) (m : Mode) (a : Nat) : (s.setMode m).readByte a = s.readByte a := rfl
@[simp] theorem State.setErrcode_readByte (s : State) (e : Byte) (a : Nat) : (s.setErrcode e).readByte a = s.readByte a := rfl
@[simp] theorem State.setCmds_readByte (s : State) (c : List CmdWord) (a : Nat) : (s.setCmds c).readByte a = s.readByte a := rfl
@[simp] theorem State.pushResp_readByte (s : State) (r : RespWord) (a : Nat) : (s.pushResp r).readByte a = s.readByte a := rfl

/-- Two states are equal when their fields are. -/
theorem State.ext_fields {s t : State} (h1 : s.hs = t.hs) (h2 : s.buf = t.buf) (h3 : s.len = t.len) (h4 : s.mode = t.mode)
    (h5 : s.errcode = t.errcode) (h6 : s.cmds = t.cmds) (h7 : s.resps = t.resps) : s = t := by
  cases s; cases t; simp_all

end Sys2Proof.Machine
end

