-- ==== Sys2Proof/Laws/Memory.lean ====
section
/-! SUPPORT. The laws of BUF: what a read gives after a write, the canonical form every operation keeps, and what
`MemRead` and `MemWrite` answer. -/

namespace Sys2Proof.Machine

@[simp] theorem Memory.lookup_nil (a : Nat) : Memory.lookup [] a = none := rfl

/-- A read after a write to the same entry gives the value written. -/
@[simp] theorem Memory.lookup_insert_same (m : Memory) (a : Nat) (b : Byte) : (m.insert a b).lookup a = some b := by
  induction m with
  | nil => simp [Memory.insert, Memory.lookup]
  | cons c m ih =>
    obtain ⟨k, v⟩ := c
    simp only [Memory.insert]
    split
    · simp [Memory.lookup]
    · split
      · simp [Memory.lookup]
      · rename_i h1 h2
        simp [Memory.lookup, ih, Ne.symm h2]

/-- A write leaves every other entry alone. -/
theorem Memory.lookup_insert_ne (m : Memory) {a a' : Nat} (b : Byte) (h : a' ≠ a) :
    (m.insert a b).lookup a' = m.lookup a' := by
  induction m with
  | nil => simp [Memory.insert, Memory.lookup, h.symm]
  | cons c m ih =>
    obtain ⟨k, v⟩ := c
    simp only [Memory.insert]
    split
    · simp [Memory.lookup, h.symm]
    · split
      · rename_i h1 h2
        subst h2
        simp [Memory.lookup, h.symm]
      · simp [Memory.lookup, ih]

/-- The indexes a write leaves listed. -/
theorem Memory.mem_insert_keys (m : Memory) (a : Nat) (b : Byte) (x : Nat) :
    x ∈ (m.insert a b).map Prod.fst ↔ x = a ∨ x ∈ m.map Prod.fst := by
  induction m with
  | nil => simp [Memory.insert]
  | cons c m ih =>
    obtain ⟨k, v⟩ := c
    simp only [Memory.insert]
    split
    · simp
    · split
      · rename_i h1 h2
        subst h2
        simp
      · simp only [List.map_cons, List.mem_cons, ih]
        tauto

/-- A write inside BUF keeps the canonical form. -/
theorem Memory.insert_wf {m : Memory} {a : Nat} (b : Byte) (h : m.wf) (ha : a < 64) : (m.insert a b).wf := by
  refine ⟨?_, ?_⟩
  · have hp := h.1
    clear h ha
    induction m with
    | nil => simp [Memory.insert]
    | cons c m ih =>
      obtain ⟨k, v⟩ := c
      simp only [List.map_cons, List.pairwise_cons] at hp
      simp only [Memory.insert]
      split
      · rename_i h1
        simp only [List.map_cons, List.pairwise_cons, List.mem_cons]
        refine ⟨?_, hp⟩
        rintro x (rfl | hx)
        · exact h1
        · exact h1.trans (hp.1 x hx)
      · split
        · rename_i h1 h2
          subst h2
          simpa only [List.map_cons, List.pairwise_cons] using hp
        · rename_i h1 h2
          simp only [List.map_cons, List.pairwise_cons]
          refine ⟨?_, ih hp.2⟩
          intro x hx
          rcases (Memory.mem_insert_keys m a b x).1 hx with rfl | hx
          · omega
          · exact hp.1 x hx
  · intro x hx
    rcases (Memory.mem_insert_keys m a b x).1 hx with rfl | hx
    · exact ha
    · exact h.2 x hx

/-- BUF with no value is in canonical form. -/
theorem Memory.nil_wf : Memory.wf [] := by decide

/-- A write past every listed index lists the new entry last. -/
theorem Memory.insert_append {m : Memory} {a : Nat} (b : Byte) (h : ∀ x ∈ m.map Prod.fst, x < a) :
    m.insert a b = m ++ [(a, b)] := by
  induction m with
  | nil => rfl
  | cons c m ih =>
    obtain ⟨k, v⟩ := c
    have hk : k < a := h k (by simp)
    have h1 : ¬ a < k := by omega
    have h2 : a ≠ k := by omega
    simp only [Memory.insert, if_neg h1, if_neg h2, List.cons_append]
    rw [ih fun x hx => h x (by simp [hx])]

/-- An entry listed nowhere reads as no value. -/
theorem Memory.lookup_none {m : Memory} {a : Nat} (h : a ∉ m.map Prod.fst) : m.lookup a = none := by
  induction m with
  | nil => rfl
  | cons c m ih =>
    obtain ⟨k, v⟩ := c
    simp only [List.map_cons, List.mem_cons, not_or] at h
    simp [Memory.lookup, Ne.symm h.1, ih h.2]

/-- The byte of an entry that a read finds. -/
theorem State.readByte_ok {s : State} {a : Nat} {b : Byte} :
    s.readByte a = .ok b ↔ a < 64 ∧ s.buf.lookup a = some b := by
  unfold State.readByte
  split
  · cases h : s.buf.lookup a <;> simp_all
  · simp_all

/-- `MemWrite` inside BUF. -/
@[simp] theorem State.memWrite_of_lt {s : State} {a : Nat} (b : Byte) (h : a < 64) :
    s.memWrite a b = .ok (s.setBuf (s.buf.insert a b)) := if_pos h

/-- BUFCNT is an index of BUF. -/
theorem State.bufCnt_lt (s : State) : s.bufCnt < 64 := Nat.mod_lt _ (by decide)

/-- ABSORB's write never leaves BUF. -/
@[simp] theorem State.memWrite_bufCnt (s : State) (b : Byte) :
    s.memWrite s.bufCnt b = .ok (s.setBuf (s.buf.insert s.bufCnt b)) := State.memWrite_of_lt b s.bufCnt_lt

@[simp] theorem State.memRead_zero (s : State) (a : Nat) : s.memRead a 0 = .ok [] := rfl

/-- What `MemRead` answers depends on BUF alone. -/
theorem State.memRead_congr {s t : State} (h : s.buf = t.buf) (a n : Nat) : s.memRead a n = t.memRead a n := by
  induction n generalizing a with
  | zero => rfl
  | succ n ih => simp [State.memRead, State.readByte, h, ih]

@[simp] theorem State.setLen_memRead (s : State) (l : Len) (a n : Nat) : (s.setLen l).memRead a n = s.memRead a n :=
  State.memRead_congr (s := s.setLen l) (t := s) rfl a n

@[simp] theorem State.setHs_memRead (s : State) (h : HashState) (a n : Nat) : (s.setHs h).memRead a n = s.memRead a n :=
  State.memRead_congr (s := s.setHs h) (t := s) rfl a n

@[simp] theorem State.setCmds_memRead (s : State) (c : List CmdWord) (a n : Nat) :
    (s.setCmds c).memRead a n = s.memRead a n :=
  State.memRead_congr (s := s.setCmds c) (t := s) rfl a n

@[simp] theorem State.pushResp_memRead (s : State) (r : RespWord) (a n : Nat) :
    (s.pushResp r).memRead a n = s.memRead a n :=
  State.memRead_congr (s := s.pushResp r) (t := s) rfl a n

/-- What `MemRead` gives: as many bytes as asked for, each the byte of its entry. -/
theorem State.memRead_ok {s : State} {a n : Nat} {bs : List Byte} :
    s.memRead a n = .ok bs ↔ bs.length = n ∧ ∀ j (hj : j < bs.length), s.readByte (a + j) = .ok bs[j] := by
  induction n generalizing a bs with
  | zero =>
    simp only [State.memRead_zero, Except.ok.injEq]
    constructor
    · rintro rfl; simp
    · rintro ⟨h, -⟩; exact (List.eq_nil_of_length_eq_zero h).symm
  | succ n ih =>
    constructor
    · intro h
      rw [State.memRead] at h
      split at h
      · cases h
      · rename_i b hb
        split at h
        · cases h
        · rename_i bs' hbs
          injection h with h
          subst h
          obtain ⟨hl, hr⟩ := ih.1 hbs
          refine ⟨by simp [hl], ?_⟩
          intro j hj
          cases j with
          | zero => simpa using hb
          | succ j =>
            have := hr j (by simpa using hj)
            simpa [Nat.add_assoc, Nat.add_comm 1 j] using this
    · rintro ⟨hl, hr⟩
      cases bs with
      | nil => simp at hl
      | cons b bs =>
        have h0 : s.readByte a = .ok b := hr 0 (by simp)
        have h1 : s.memRead (a + 1) n = .ok bs := by
          refine ih.2 ⟨by simpa using hl, ?_⟩
          intro j hj
          have := hr (j + 1) (by simpa using hj)
          simpa [Nat.add_assoc, Nat.add_comm 1 j] using this
        simp [State.memRead, h0, h1]

/-- `MemRead` gives as many bytes as asked for. -/
theorem State.memRead_length {s : State} {a n : Nat} {bs : List Byte} (h : s.memRead a n = .ok bs) : bs.length = n :=
  (State.memRead_ok.1 h).1

/-- A `MemRead` inside BUF stops on an entry that holds no value, and on nothing else (spec/10_state.md R19). -/
theorem State.memRead_error {s : State} {a n : Nat} {f : Fault} (h : s.memRead a n = .error f) (hn : a + n ≤ 64) :
    ∃ k, a ≤ k ∧ k < a + n ∧ s.buf.lookup k = none ∧ f = .bufNoValue k := by
  induction n generalizing a with
  | zero => simp at h
  | succ n ih =>
    rw [State.memRead] at h
    split at h
    · rename_i g hg
      injection h with h
      subst h
      rw [State.readByte, if_pos (by omega)] at hg
      split at hg
      · cases hg
      · injection hg with hg
        exact ⟨a, by omega, by omega, by assumption, hg.symm⟩
    · split at h
      · rename_i g hg
        injection h with h
        subst h
        obtain ⟨k, h1, h2, h3⟩ := ih hg (by omega)
        exact ⟨k, by omega, by omega, h3⟩
      · cases h

/-- The last byte of a `MemRead`. -/
theorem State.memRead_snoc {s : State} {a n : Nat} {bs : List Byte} {b : Byte} (h : s.memRead a n = .ok bs)
    (hb : s.readByte (a + n) = .ok b) : s.memRead a (n + 1) = .ok (bs ++ [b]) := by
  obtain ⟨hl, hr⟩ := State.memRead_ok.1 h
  refine State.memRead_ok.2 ⟨by simp [hl], ?_⟩
  intro j hj
  rcases Nat.lt_or_ge j bs.length with h' | h'
  · simpa [List.getElem_append_left h'] using hr j h'
  · have hj' : j = bs.length := by simp at hj; omega
    subst hj'
    simpa [hl] using hb

/-- A `MemRead` that does not touch a written entry gives what it gave before the write. -/
theorem State.memRead_setBuf_insert {s : State} {a n k : Nat} {b : Byte} {bs : List Byte}
    (h : s.memRead a n = .ok bs) (hk : a + n ≤ k) :
    (s.setBuf (s.buf.insert k b)).memRead a n = .ok bs := by
  obtain ⟨hl, hr⟩ := State.memRead_ok.1 h
  refine State.memRead_ok.2 ⟨hl, ?_⟩
  intro j hj
  obtain ⟨h1, h2⟩ := State.readByte_ok.1 (hr j hj)
  refine State.readByte_ok.2 ⟨h1, ?_⟩
  rw [State.setBuf_buf, Memory.lookup_insert_ne _ _ (by omega)]
  exact h2

/-- ABSORB of the byte at entry `n`: the first `n` bytes as before, and the new one after them. -/
theorem State.memRead_insert_next {s : State} {n : Nat} {b : Byte} {bs : List Byte} (h : s.memRead 0 n = .ok bs)
    (hn : n < 64) : (s.setBuf (s.buf.insert n b)).memRead 0 (n + 1) = .ok (bs ++ [b]) := by
  refine State.memRead_snoc (State.memRead_setBuf_insert h (by omega)) ?_
  exact State.readByte_ok.2 ⟨by omega, by simp⟩

/-- BUF listing entries 0..n−1 is read without a fault. -/
theorem State.memRead_of_filled {s : State} {n : Nat} (h : s.buf.map Prod.fst = List.range n) (hn : n ≤ 64) :
    s.memRead 0 n = .ok (s.buf.map Prod.snd) := by
  have hl : s.buf.length = n := by simpa using congrArg List.length h
  refine State.memRead_ok.2 ⟨by simp [hl], ?_⟩
  intro j hj
  rw [Nat.zero_add]
  have hj' : j < s.buf.length := by simpa using hj
  refine State.readByte_ok.2 ⟨by omega, ?_⟩
  have key : ∀ (m : Memory) (k j : Nat) (hj : j < m.length), m.map Prod.fst = List.range' k m.length →
      m.lookup (k + j) = some (m[j]).2 := by
    intro m
    induction m with
    | nil => intro k j hj; simp at hj
    | cons c m ih =>
      intro k j hj hm
      obtain ⟨k', v⟩ := c
      simp only [List.map_cons, List.length_cons, List.range'_succ, List.cons.injEq] at hm
      obtain ⟨rfl, hm⟩ := hm
      cases j with
      | zero => simp [Memory.lookup]
      | succ j =>
        have := ih (k' + 1) j (by simpa using hj) hm
        have hne : k' ≠ k' + (j + 1) := by omega
        simp only [Memory.lookup, if_neg hne, List.getElem_cons_succ]
        rw [← this]
        congr 1
        omega
  have := key s.buf 0 j hj' (by rw [h, hl, List.range_eq_range'])
  simpa using this

end Sys2Proof.Machine
end

