-- ==== Sys2Proof/Laws/Exec.lean ====
section
/-! SUPPORT. What each shared operation of ABSORB, FINALIZE and the read commands can answer, said once: equations for the
states in which it completes, and one inversion lemma per operation. -/

namespace Sys2Proof.Machine

/-- L counted up, modulo a block. -/
theorem len_succ_mod (l : Len) : (l + 1#64).toNat % 64 = (l.toNat % 64 + 1) % 64 := by
  rw [BitVec.toNat_add]
  simp only [BitVec.toNat_ofNat]
  omega

/-- An ABSORB that does not fill the block (spec/40_block_assembler.md R54). -/
theorem absorbByte_store {s : State} (d : Byte) (h : s.bufCnt ≠ 63) :
    absorbByte d s = .next (((s.setBuf (s.buf.insert s.bufCnt d)).setLen (s.len + 1)).respond 0x00#8) := by
  have hc : (s.len.toNat + 1) % 64 ≠ 0 := by unfold State.bufCnt at h; omega
  simp [absorbByte, hc]

/-- An ABSORB that fills the block: the fold of the 63 bytes held and the new one (R55). -/
theorem absorbByte_full {s : State} {d : Byte} {bs : List Byte} (h : s.bufCnt = 63) (hr : s.memRead 0 63 = .ok bs) :
    absorbByte d s = .next (((((s.setBuf (s.buf.insert s.bufCnt d)).setLen (s.len + 1)).setHs
      (compress (bs ++ [d]) s.hs)).clearBuf).respond 0x00#8) := by
  have hc : (s.len.toNat + 1) % 64 = 0 := by unfold State.bufCnt at h; omega
  have hr' := State.memRead_insert_next (b := d) hr (by decide)
  have hl : (bs ++ [d]).length = 64 := by simp [State.memRead_length hr]
  simp [absorbByte, hc, h, foldFullBlock, hr', foldBlock_of_length hl]

/-- `MemRead` of more bytes answers only if that of fewer does. -/
theorem State.memRead_init {s : State} {n : Nat} {bs : List Byte} (h : s.memRead 0 (n + 1) = .ok bs) :
    ∃ cs b, bs = cs ++ [b] ∧ s.memRead 0 n = .ok cs ∧ s.readByte n = .ok b := by
  obtain ⟨hl, hr⟩ := State.memRead_ok.1 h
  have hne : bs ≠ [] := by rintro rfl; simp at hl
  refine ⟨bs.dropLast, bs.getLast hne, (List.dropLast_append_getLast hne).symm, ?_, ?_⟩
  · refine State.memRead_ok.2 ⟨by simp [hl], ?_⟩
    intro j hj
    have hj' : j < bs.length := by simp at hj; omega
    simpa [List.getElem_dropLast] using hr j hj'
  · have := hr n (by omega)
    rw [Nat.zero_add] at this
    rw [this, List.getLast_eq_getElem]
    congr 2
    omega

/-- What ABSORB past its checks can answer with a next state (R54, R55). -/
theorem absorbByte_next {s t : State} {d : Byte} (h : absorbByte d s = .next t) :
    (s.bufCnt ≠ 63 ∧ t = ((s.setBuf (s.buf.insert s.bufCnt d)).setLen (s.len + 1)).respond 0x00#8) ∨
    (s.bufCnt = 63 ∧ ∃ bs, s.memRead 0 63 = .ok bs ∧
      t = ((((s.setBuf (s.buf.insert s.bufCnt d)).setLen (s.len + 1)).setHs
        (compress (bs ++ [d]) s.hs)).clearBuf).respond 0x00#8) := by
  by_cases h63 : s.bufCnt = 63
  · right
    have hc : (s.len.toNat + 1) % 64 = 0 := by unfold State.bufCnt at h63; omega
    refine ⟨h63, ?_⟩
    cases hr : (s.setBuf (s.buf.insert s.bufCnt d)).memRead 0 64 with
    | error f => simp [absorbByte, hc, foldFullBlock, hr] at h
    | ok blk =>
      obtain ⟨cs, b, rfl, hcs, hb⟩ := State.memRead_init hr
      have hb' : b = d := by
        rw [h63] at hb
        have := (State.readByte_ok.1 hb).2
        simpa [eq_comm] using this
      subst hb'
      have hbefore : s.memRead 0 63 = .ok cs := by
        obtain ⟨hl, hg⟩ := State.memRead_ok.1 hcs
        refine State.memRead_ok.2 ⟨hl, fun j hj => ?_⟩
        obtain ⟨h1, h2⟩ := State.readByte_ok.1 (hg j hj)
        rw [State.setBuf_buf, Memory.lookup_insert_ne _ _ (by omega)] at h2
        exact State.readByte_ok.2 ⟨h1, h2⟩
      refine ⟨cs, hbefore, ?_⟩
      rw [absorbByte_full h63 hbefore] at h
      injection h with h
      exact h.symm
  · left
    rw [absorbByte_store d h63] at h
    injection h with h
    exact ⟨h63, h.symm⟩

/-- `MAX_MSG_BYTES` is 2^61 − 1 (spec/40_block_assembler.md R56). -/
theorem maxMsgBytes_eq : Config.maxMsgBytes = 2 ^ 61 - 1 := by norm_num [Config.maxMsgBytes]

/-- ABSORB in mode ABSORB below the length limit is `absorbByte` (R54). -/
theorem execAbsorb_open {s : State} (d : Byte) (hm : s.mode = .absorb) (hl : s.len.toNat ≠ Config.maxMsgBytes) :
    execAbsorb d s = absorbByte d s := by
  simp [execAbsorb, hm, hl, dataOperand]

/-- What ABSORB can answer with a next state, mode by mode (R54; spec/60_exceptions.md R96). -/
theorem execAbsorb_next {s t : State} {d : Byte} (h : execAbsorb d s = .next t) :
    (s.mode = .error ∧ t = s.raiseReject .inError) ∨
    (s.mode = .done ∧ t = s.raiseReject .wrongMode) ∨
    (s.mode = .absorb ∧ s.len.toNat = Config.maxMsgBytes ∧ t = s.raiseFatal .lengthOverflow) ∨
    (s.mode = .absorb ∧ s.len.toNat ≠ Config.maxMsgBytes ∧ absorbByte d s = .next t) := by
  unfold execAbsorb at h
  split at h
  · simp_all
  · simp_all
  · split at h <;> simp_all [dataOperand]

/-- The Hash State FINALIZE leaves, from the bytes of the tail (spec/40_block_assembler.md R57). -/
theorem foldTail_some {s : State} {bs : List Byte} (h : s.memRead 0 s.bufCnt = .ok bs) :
    foldTail (bs ++ padBytes s.len) s.hs = some (
      if s.bufCnt ≤ 55 then compress (bs ++ padBytes s.len) s.hs
      else compress ((bs ++ padBytes s.len).drop 64) (compress ((bs ++ padBytes s.len).take 64) s.hs)) := by
  have hl := tail_length (l := s.len) (State.memRead_length h)
  change _ = if s.bufCnt ≤ 55 then 64 else 128 at hl
  split at hl
  · rename_i hr
    rw [if_pos hr, foldTail_one hl]
  · rename_i hr
    rw [if_neg hr, foldTail_two hl]

/-- FINALIZE past its mode checks, where the bytes of the partial block are held (R57). -/
theorem finalizeTail_of_read {s : State} {bs : List Byte} (h : s.memRead 0 s.bufCnt = .ok bs) :
    finalizeTail s = .next (((s.setHs (
      if s.bufCnt ≤ 55 then compress (bs ++ padBytes s.len) s.hs
      else compress ((bs ++ padBytes s.len).drop 64)
        (compress ((bs ++ padBytes s.len).take 64) s.hs))).clearBuf.setMode .done).respond 0x00#8) := by
  simp only [finalizeTail, h, foldTail_some h]

/-- What FINALIZE past its mode checks can answer with a next state: only the state of `finalizeTail_of_read`. -/
theorem finalizeTail_next {s t : State} (h : finalizeTail s = .next t) :
    ∃ bs, s.memRead 0 s.bufCnt = .ok bs ∧ t = ((s.setHs (
      if s.bufCnt ≤ 55 then compress (bs ++ padBytes s.len) s.hs
      else compress ((bs ++ padBytes s.len).drop 64)
        (compress ((bs ++ padBytes s.len).take 64) s.hs))).clearBuf.setMode .done).respond 0x00#8 := by
  cases hr : s.memRead 0 s.bufCnt with
  | error f => simp [finalizeTail, hr] at h
  | ok bs =>
    rw [finalizeTail_of_read hr] at h
    injection h with h
    exact ⟨bs, rfl, h.symm⟩

/-- What FINALIZE can answer with a next state, mode by mode (R57; spec/60_exceptions.md R96). -/
theorem execFinalize_next {s t : State} (h : execFinalize s = .next t) :
    (s.mode = .error ∧ t = s.raiseReject .inError) ∨
    (s.mode = .done ∧ t = s.raiseReject .wrongMode) ∨
    (s.mode = .absorb ∧ finalizeTail s = .next t) := by
  unfold execFinalize at h
  split at h <;> simp_all

/-- What a read command leaves: one response, and nothing else (spec/20_memory.md R36). -/
theorem State.answerRead_eq (s : State) (b : Option Byte) :
    s.answerRead b = s.pushResp (match b with
      | some d => respWord .ok d
      | none => respWord .badIndex 0x00#8) := by
  cases b <;> rfl

/-- What RDDIG answers, mode by mode (spec/42_accumulator.md R75). -/
theorem execRddig_eq (i : Byte) (s : State) :
    execRddig i s = .next (match s.mode with
      | .error => s.raiseReject .inError
      | .absorb => s.raiseReject .wrongMode
      | .done => s.answerRead (digestBytes s.hs)[i.toNat]?) := by
  unfold execRddig indexOperand
  cases s.mode <;> rfl

/-- What RDHEX answers, mode by mode (R76). -/
theorem execRdhex_eq (i : Byte) (s : State) :
    execRdhex i s = .next (match s.mode with
      | .error => s.raiseReject .inError
      | .absorb => s.raiseReject .wrongMode
      | .done => s.answerRead (hexChars s.hs)[i.toNat]?) := by
  unfold execRdhex indexOperand
  cases s.mode <;> rfl

/-- A response word's code and data (spec/30_encoding.md R46). -/
@[simp] theorem respCodeField_respWord (c : RespCode) (d : Byte) : respCodeField (respWord c d) = c.code := by
  revert d; cases c <;> decide +kernel

@[simp] theorem respDataField_respWord (c : RespCode) (d : Byte) : respDataField (respWord c d) = d := by
  revert d; cases c <;> decide +kernel

/-- Every response word the operations build is one the engine may give (spec/60_exceptions.md R89). -/
theorem respAllowed_ok (d : Byte) : respAllowed (respWord .ok d) := by
  simp [respAllowed, RespCode.code]

theorem respAllowed_zero (c : RespCode) : respAllowed (respWord c 0x00#8) := by
  cases c <;> decide

end Sys2Proof.Machine
end

