-- ==== Sys2Proof/Laws/Message.lean ====
section
/-! SUPPORT. The 64-byte slices of a byte sequence, and a run of commands one after the other. -/

namespace Sys2Proof.Machine

@[simp] theorem slices_zero (bs : List Byte) : slices 0 bs = [] := rfl

/-- As many slices as asked for. -/
@[simp] theorem slices_length (n : Nat) (bs : List Byte) : (slices n bs).length = n := by
  induction n generalizing bs with
  | zero => rfl
  | succ n ih => simp [slices, ih]

/-- Bytes after the slices do not change them. -/
theorem slices_append (n : Nat) (bs cs : List Byte) (h : 64 * n ≤ bs.length) : slices n (bs ++ cs) = slices n bs := by
  induction n generalizing bs with
  | zero => rfl
  | succ n ih =>
    simp only [slices]
    rw [List.take_append_of_le_length (by omega), List.drop_append_of_le_length (by omega), ih _ (by simp; omega)]

/-- One more slice comes last. -/
theorem slices_succ (n : Nat) (bs : List Byte) : slices (n + 1) bs = slices n bs ++ [(bs.drop (64 * n)).take 64] := by
  induction n generalizing bs with
  | zero => simp [slices]
  | succ n ih =>
    rw [slices, ih, slices]
    simp [List.drop_drop]
    ring_nf

/-- The slices of whole blocks, joined, are the bytes. -/
theorem slices_flatten (n : Nat) (bs : List Byte) (h : bs.length = 64 * n) : (slices n bs).flatten = bs := by
  induction n generalizing bs with
  | zero => simp at h; subst h; rfl
  | succ n ih => simp [slices, ih (bs.drop 64) (by simp; omega)]

/-- Every slice of whole blocks is 64 bytes. -/
theorem length_of_mem_slices (n : Nat) (bs : List Byte) (h : bs.length = 64 * n) : ∀ b ∈ slices n bs, b.length = 64 := by
  induction n generalizing bs with
  | zero => simp
  | succ n ih =>
    simp only [slices, List.mem_cons]
    rintro b (rfl | hb)
    · simp; omega
    · exact ih (bs.drop 64) (by simp; omega) b hb

/-- A run goes on from the state its first command leaves. -/
theorem execAll_cons_next {i : Instr} {s t : State} (is : List Instr) (h : exec i s = .next t) :
    execAll (i :: is) s = execAll is t := by
  simp only [execAll, h]

end Sys2Proof.Machine
end

