-- ==== Sys2Proof/Laws/PerInstr.lean ====
section
/-! SUPPORT. Statements made once per constructor of Instr. -/

namespace Sys2Proof.Laws

/-- What the opcode table says of a command's word: its row selects the word, and OPND holds the operand
(spec/30_encoding.md R47, R48). -/
def EncodingRow.Statement (i : Instr) : Prop :=
  i.row.selects (encode i) = true ∧ opndField (encode i) = i.opnd

theorem EncodingRow.nop : EncodingRow.Statement .nop := ⟨by decide, by decide⟩
theorem EncodingRow.reset : EncodingRow.Statement .reset := ⟨by decide, by decide⟩
theorem EncodingRow.absorb (d : Byte) : EncodingRow.Statement (.absorb d) :=
  ⟨beq_iff_eq.2 ((and_opcMask_eq_iff (f := rowAbsorb.fixedBits) (by decide)).2 (encode_fields (.absorb d)).1),
    (encode_fields (.absorb d)).2⟩
theorem EncodingRow.finalize : EncodingRow.Statement .finalize := ⟨by decide, by decide⟩
theorem EncodingRow.rddig (i : Byte) : EncodingRow.Statement (.rddig i) :=
  ⟨beq_iff_eq.2 ((and_opcMask_eq_iff (f := rowRddig.fixedBits) (by decide)).2 (encode_fields (.rddig i)).1),
    (encode_fields (.rddig i)).2⟩
theorem EncodingRow.rdhex (i : Byte) : EncodingRow.Statement (.rdhex i) :=
  ⟨beq_iff_eq.2 ((and_opcMask_eq_iff (f := rowRdhex.fixedBits) (by decide)).2 (encode_fields (.rdhex i)).1),
    (encode_fields (.rdhex i)).2⟩
theorem EncodingRow.rdstat (sel : Byte) : EncodingRow.Statement (.rdstat sel) :=
  ⟨beq_iff_eq.2 ((and_opcMask_eq_iff (f := rowRdstat.fixedBits) (by decide)).2 (encode_fields (.rdstat sel)).1),
    (encode_fields (.rdstat sel)).2⟩

end Sys2Proof.Laws
end

