-- ==== Sys2Proof/Tests/Slice0.lean ====
section
/-! SUPPORT. Tests and witnesses. Expected values are those of spec/95_test_vectors.md (its V-… ids) and of the examples in
the numbered rules; the decoded words are written out from the bit patterns of spec/30_encoding.md R47. -/

namespace Sys2Proof.Tests

open Sys2Proof Sys2Proof.Machine

/-! ## Small states -/

/-- The next state an outcome gives, if it gives one. -/
def after : Outcome → Option State
  | .next t => some t
  | _ => none

/-- ABSORB mode, "abc" absorbed (V-K11). -/
def sAbc : State :=
  { State.reset with buf := [(0, 0x61#8), (1, 0x62#8), (2, 0x63#8)], len := 3#64 }

/-- ABSORB mode, `n` bytes 'a' held in BUF. -/
def sHeld (n : Nat) : State :=
  { State.reset with buf := (List.range n).map fun k => (k, 0x61#8), len := BitVec.ofNat 64 n }

/-- ABSORB mode at the length limit (V-K30). -/
def sLimit : State := { sHeld 63 with len := 0x1FFFFFFFFFFFFFFF#64 }

/-- The Hash State of "abc" (V-C1). -/
def hsAbc : HashState :=
  #v[0xba7816bf#32, 0x8f01cfea#32, 0x414140de#32, 0x5dae2223#32,
    0xb00361a3#32, 0x96177a9c#32, 0xb410ff61#32, 0xf20015ad#32]

/-- DONE after "abc" (V-K14). -/
def sDone : State := { State.reset with hs := hsAbc, len := 3#64, mode := .done }

/-- ERROR after the length overflow (V-K32). -/
def sError : State := { sLimit with mode := .error, errcode := 0x05#8 }

/-- The padded block of "abc" (R57's example). -/
def blkAbc : List Byte := [0x61#8, 0x62#8, 0x63#8, 0x80#8] ++ List.replicate 59 0x00#8 ++ [0x18#8]

/-! ## WellFormed: an ill-formed term for each check -/

theorem test_imm8_refuses_256 : imm8Ok 256 = false := by decide
theorem test_imm16_refuses_65536 : imm16Ok 65536 = false := by decide
theorem test_stmt_refuses_absorb_256 : (Stmt.absorb 256).wf = false := by decide
theorem test_stmt_refuses_rddig_256 : (Stmt.rddig 256).wf = false := by decide
theorem test_stmt_refuses_rdhex_256 : (Stmt.rdhex 256).wf = false := by decide
theorem test_stmt_refuses_rdstat_256 : (Stmt.rdstat 256).wf = false := by decide
theorem test_stmt_refuses_word_65536 : (Stmt.word 65536).wf = false := by decide
theorem test_stmt_accepts_rddig_40 : (Stmt.rddig 40).wf = true := by decide

/-! ## Decoding: words from the bit patterns of R47 -/

theorem test_decode_nop : decode 0b00000000_00000000#16 = .ok .nop := by rfl
theorem test_decode_reset : decode 0b00000001_00000000#16 = .ok .reset := by rfl
theorem test_decode_absorb : decode 0b00000010_01100001#16 = .ok (.absorb 0b01100001#8) := by rfl
theorem test_decode_finalize : decode 0b00000011_00000000#16 = .ok .finalize := by rfl
theorem test_decode_rddig : decode 0b00000100_00011111#16 = .ok (.rddig 0b00011111#8) := by rfl
theorem test_decode_rdhex : decode 0b00000101_00111111#16 = .ok (.rdhex 0b00111111#8) := by rfl
theorem test_decode_rdstat : decode 0b00000110_00001010#16 = .ok (.rdstat 0b00001010#8) := by rfl
/-- V-K2. -/
theorem test_decode_nop_operand : decode 0x0001#16 = .error .nonzeroOperand := by rfl
/-- V-K4. -/
theorem test_decode_finalize_operand : decode 0x0301#16 = .error .nonzeroOperand := by rfl
/-- V-K5. -/
theorem test_decode_opcode_7 : decode 0x0700#16 = .error .unassignedOpcode := by rfl
/-- V-K6. -/
theorem test_decode_opcode_255 : decode 0xffff#16 = .error .unassignedOpcode := by rfl
theorem test_encode_absorb : encode (.absorb 0x61#8) = 0x0261#16 := by decide
theorem test_table_word : decodeTableWord 16 0x053f = some (.rdhex 63#8) := by rfl
theorem test_fetch_word_runs :
    (after (step (State.reset.withFetchWord 16 0x0261))).map (·.len) = some 1#64 := by decide

/-! ## Commands -/

/-- V-K38. -/
theorem test_nop_in_error : (after (exec .nop sError)).map (·.resps) = some [0x0000#16] := by decide
/-- V-K39. -/
theorem test_reset_leaves_error :
    (after (exec .reset sError)).map (fun t => (t.mode, t.len, t.errcode, t.buf)) = some (.absorb, 0#64, 0x00#8, []) := by
  decide
/-- V-K8. -/
theorem test_absorb_first_byte :
    (after (exec (.absorb 0x61#8) State.reset)).map (fun t => (t.buf, t.len, t.resps)) =
      some ([(0, 0x61#8)], 1#64, [0x0000#16]) := by decide
/-- V-K9. -/
theorem test_absorb_block_full :
    (after (exec (.absorb 0x61#8) (sHeld 63))).map (fun t => (t.hs, t.buf)) =
      some (#v[0xdf5bb81c#32, 0xe81e0626#32, 0xfb45a894#32, 0x4fd40f31#32,
        0xb25e6816#32, 0xd6d499c1#32, 0xab904929#32, 0x00635e66#32], []) := by decide +kernel
/-- V-K12. -/
theorem test_finalize_abc :
    (after (exec .finalize sAbc)).map (fun t => (t.hs, t.mode, t.len)) = some (hsAbc, .done, 3#64) := by decide +kernel
/-- V-D4: 56 bytes need two tail blocks. -/
theorem test_finalize_two_blocks :
    (after (exec .finalize (sHeld 56))).map (·.hs) =
      some #v[0xb35439a4#32, 0xac6f0948#32, 0xb6d6f9e3#32, 0xc6af0f5f#32,
        0x590ce20f#32, 0x1bde7090#32, 0xef797068#32, 0x6ec6738a#32] := by decide +kernel
/-- V-K17. -/
theorem test_rddig_31 : (after (exec (.rddig 31#8) sDone)).map (·.resps) = some [0x00ad#16] := by decide
/-- V-K40: the mode is checked before the index. -/
theorem test_rddig_mode_first : (after (exec (.rddig 40#8) sAbc)).map (·.resps) = some [0x0300#16] := by decide
/-- V-K20. -/
theorem test_rdhex_0 : (after (exec (.rdhex 0#8) sDone)).map (·.resps) = some [0x0062#16] := by decide
/-- V-K21. -/
theorem test_rdhex_63 : (after (exec (.rdhex 63#8) sDone)).map (·.resps) = some [0x0064#16] := by decide
/-- V-K37. -/
theorem test_rdstat_len_in_error : (after (exec (.rdstat 10#8) sError)).map (·.resps) = some [0x00ff#16] := by decide
/-- Program P4: L[63:56] of 2^61 − 1. -/
theorem test_rdstat_len7 : (after (exec (.rdstat 3#8) sLimit)).map (·.resps) = some [0x001f#16] := by decide
/-- V-K30. -/
theorem test_absorb_overflow :
    (after (exec (.absorb 0x61#8) sLimit)).map (fun t => (t.mode, t.errcode, t.len == sLimit.len, t.resps)) =
      some (.error, 0x05#8, true, [0x0500#16]) := by decide
/-- V-K7. -/
theorem test_illegal_in_error :
    (after (step { sError with cmds := [0x0700#16] })).map (fun t => (t.mode, t.resps)) =
      some (.error, [0x0100#16]) := by decide

/-! ## Primitives, schedule, padding -/

/-- V-P6. -/
theorem test_rotr : rotr 0x12345678#32 8 = 0x78123456#32 := by decide
/-- V-P16. -/
theorem test_ch : ch 0xff00ff00#32 0x12345678#32 0x9abcdef0#32 = 0x12bc56f0#32 := by decide
/-- V-P19. -/
theorem test_maj : maj 0xff00ff00#32 0x0f0f0f0f#32 0x00ffff00#32 = 0x0f0fff00#32 := by decide
/-- V-P25. -/
theorem test_bsig0 : bsig0 0x6a09e667#32 = 0xce20b47e#32 := by decide
/-- V-P32. -/
theorem test_bsig1 : bsig1 0x510e527f#32 = 0x3587272b#32 := by decide
/-- V-P38. -/
theorem test_ssig0 : ssig0 0x510e527f#32 = 0x601c02a8#32 := by decide
/-- V-P44. -/
theorem test_ssig1 : ssig1 0x510e527f#32 = 0xe3640132#32 := by decide
/-- V-S1. -/
theorem test_schedule_last : (schedule blkAbc).getD 63 0 = 0x12b1edeb#32 := by decide +kernel
/-- V-C3. -/
theorem test_compress_zero :
    compress (List.replicate 64 0x00#8) #v[0#32, 0#32, 0#32, 0#32, 0#32, 0#32, 0#32, 0#32] =
      #v[0x7ca51614#32, 0x425c3ba8#32, 0xce54dd2f#32, 0xc2020ae7#32,
        0xb6e574d1#32, 0x98136d0f#32, 0xae7e26cc#32, 0xbf0be7a6#32] := by decide +kernel
/-- V-A9. -/
theorem test_padding_at_limit :
    padBytes 0x1FFFFFFFFFFFFFFF#64 = [0x80#8] ++ List.replicate 56 0x00#8 ++ List.replicate 7 0xff#8 ++ [0xf8#8] := by
  decide

/-! ## The assembler -/

/-- R52: `ABSORB 'a'`, with a comment. -/
theorem test_assemble_char :
    assembleText ['a', 'b', 's', 'o', 'r', 'b', ' ', '\'', 'a', '\'', ' ', ';', 'x'] = .ok [0x0261#16] := by decide
/-- R53: `HASH "\x80"` and `WORD 0x701` on two lines. -/
theorem test_assemble_pseudo :
    assembleText ['H', 'A', 'S', 'H', ' ', '"', '\\', 'x', '8', '0', '"', '\n', 'W', 'O', 'R', 'D', ' ', '0', 'x', '7',
      '0', '1'] = .ok [0x0100#16, 0x0280#16, 0x0300#16, 0x0701#16] := by decide
/-- R52: an operand outside 0..255 is refused. -/
theorem test_assemble_refuses :
    assembleText ['R', 'D', 'D', 'I', 'G', ' ', '2', '5', '6'] = .error .operandOutOfRange := by decide

/-! ## Witnesses: a state and operands that meet the hypotheses of each statement -/

theorem wit_nop_operand_words : 0x0001 ≤ (0x00ff#16).toNat ∧ (0x00ff#16).toNat ≤ 0x00FF := by decide
theorem wit_reset_words : opcField 0x0100#16 = 0x01#8 ∧ opcField 0x01ff#16 = 0x01#8 ∧ 0x01ff#16 ≠ 0x0100#16 := by decide
theorem wit_finalize_completes : sAbc.mode = .absorb ∧ ∃ t, exec .finalize sAbc = .next t := ⟨by decide, _, rfl⟩
theorem wit_prime_indexes : 7 < 8 ∧ 63 < 64 := by decide
theorem wit_decode_ok : decode 0x0261#16 = .ok (.absorb 0x61#8) := by rfl
theorem wit_row_in_table : rowAbsorb ∈ opcodeTable := by decide
theorem wit_illegal_opcode : 7 ≤ (opcField 0x0700#16).toNat ∧ decode 0x0700#16 = .error .unassignedOpcode := ⟨by decide, rfl⟩
theorem wit_illegal_operand : opcField 0x0301#16 = 0x03#8 ∧ opndField 0x0301#16 ≠ 0x00#8 := by decide
theorem wit_illegal_waiting :
    ({ sDone with cmds := [0x0701#16] } : State).cmds = 0x0701#16 :: [] ∧ decode 0x0701#16 = .error .unassignedOpcode :=
  ⟨rfl, rfl⟩
theorem wit_assembler_operands : 255 < 256 ∧ 256 ≤ 256 := by decide
theorem wit_command_waiting :
    ({ sAbc with cmds := [0x0300#16, 0x0400#16] } : State).cmds = 0x0300#16 :: [0x0400#16] ∧ decode 0x0300#16 = .ok .finalize :=
  ⟨rfl, rfl⟩
theorem wit_idle : State.reset.cmds = [] := rfl
theorem wit_response_step :
    ({ sDone with cmds := [0x0400#16] } : State).cmds = 0x0400#16 :: [] ∧
      ∃ t, step { sDone with cmds := [0x0400#16] } = .next t ∧ t.resps = [0x00ba#16] :=
  ⟨rfl, _, rfl, by decide⟩
theorem wit_early_next : ({ sDone with cmds := [0x0000#16] } : State).cmds ≠ [] ∧
    ∃ t, step { sDone with cmds := [0x0000#16] } = .next t := ⟨by decide, _, rfl⟩
theorem wit_early_fault :
    ({ State.reset with len := 5#64, cmds := [0x0300#16] } : State).cmds ≠ [] ∧
      step { State.reset with len := 5#64, cmds := [0x0300#16] } = .fault (.bufNoValue 0) := ⟨by decide, rfl⟩
theorem wit_exec_next : ∃ t, exec (.rdhex 64#8) sDone = .next t ∧ codeByPriority (.rdhex 64#8) sDone = .badIndex :=
  ⟨_, rfl, by decide⟩
theorem wit_reject_wrong_mode : ∃ t, exec .finalize sDone = .next t ∧
    codeByPriority .finalize sDone ∈ [RespCode.inError, .wrongMode, .badIndex] := ⟨_, rfl, by decide⟩
theorem wit_reject_in_error : ∃ t, exec (.absorb 0x61#8) sError = .next t ∧
    codeByPriority (.absorb 0x61#8) sError ∈ [RespCode.inError, .wrongMode, .badIndex] := ⟨_, rfl, by decide⟩
theorem wit_reject_bad_index : ∃ t, exec (.rddig 32#8) sDone = .next t ∧
    codeByPriority (.rddig 32#8) sDone ∈ [RespCode.inError, .wrongMode, .badIndex] := ⟨_, rfl, by decide⟩
theorem wit_word_operand : 65535 < 65536 := by decide
theorem wit_fault : exec .finalize { State.reset with len := 5#64 } = .fault (.bufNoValue 0) := rfl
theorem wit_reset_twice : ∃ t, exec .reset sError = .next t := ⟨_, rfl⟩
theorem wit_reset_state : State.reset = State.reset ∧ ∃ s t, exec .reset s = .next t := ⟨rfl, sDone, _, rfl⟩
theorem wit_absorb_stores : (sHeld 62).mode = .absorb ∧ (sHeld 62).len.toNat ≠ 2 ^ 61 - 1 ∧
    (sHeld 62).len.toNat % 64 ≠ 63 := by decide
theorem wit_absorb_folds : (sHeld 63).mode = .absorb ∧ (sHeld 63).len.toNat ≠ 2 ^ 61 - 1 ∧
    (sHeld 63).len.toNat % 64 = 63 ∧ (sHeld 63).memRead 0 63 = .ok (List.replicate 63 0x61#8) :=
  ⟨by decide, by decide, by decide, by rfl⟩
theorem wit_absorb_limit : sLimit.mode = .absorb ∧ sLimit.len.toNat = 2 ^ 61 - 1 := by decide
theorem wit_overflow_response : ∃ t, exec (.absorb 0x61#8) sLimit = .next t ∧ t.resps = sLimit.resps ++ [0x0500#16] ∧
    (0x0500#16).extractLsb' 8 8 = 0x05#8 := ⟨_, rfl, by decide, by decide⟩
theorem wit_finalize_one_block : (sHeld 55).mode = .absorb ∧
    (sHeld 55).memRead 0 ((sHeld 55).len.toNat % 64) = .ok (List.replicate 55 0x61#8) := ⟨by decide, by rfl⟩
theorem wit_finalize_two_blocks : (sHeld 56).mode = .absorb ∧
    (sHeld 56).memRead 0 ((sHeld 56).len.toNat % 64) = .ok (List.replicate 56 0x61#8) := ⟨by decide, by rfl⟩
theorem wit_modes : sAbc.mode = .absorb ∧ sDone.mode = .done ∧ sError.mode = .error := by decide
theorem wit_length_limit : (0x1FFFFFFFFFFFFFFF#64).toNat ≤ 2 ^ 61 - 1 := by decide
theorem wit_tail_55 : (List.replicate 55 0x61#8).length = (55#64).toNat % 64 ∧
    (List.replicate 55 0x61#8).length ≤ 55 := by decide
theorem wit_tail_56 : (List.replicate 56 0x61#8).length = (56#64).toNat % 64 ∧
    56 ≤ (List.replicate 56 0x61#8).length := by decide
theorem wit_done_not_reset : sDone.mode = .done ∧ Instr.absorb 0x64#8 ≠ .reset ∧ Instr.finalize ≠ .reset := by decide
theorem wit_block : blkAbc.length = 64 := by decide
theorem wit_schedule_indexes : 15 < 16 ∧ 16 ≤ 16 ∧ 63 < 64 := by decide
theorem wit_rotate_amounts : 31 ≤ 31 ∧ 31 < 32 := by decide
theorem wit_digest_indexes : 7 < 8 ∧ 3 < 4 := by decide
theorem wit_rddig_indexes : sDone.mode = .done ∧ (31#8).toNat ≤ 31 ∧ 31 < (32#8).toNat := by decide
theorem wit_rdhex_indexes : sDone.mode = .done ∧ (63#8).toNat ≤ 63 ∧ 63 < (64#8).toNat := by decide
theorem wit_rdstat_selectors : (0#8).toNat = 0 ∧ (1#8).toNat = 1 ∧ (2#8).toNat = 2 ∧ 3 ≤ (3#8).toNat ∧
    (10#8).toNat ≤ 10 ∧ 10 < (11#8).toNat := by decide
theorem wit_digest_given : ∃ t, exec (.rddig 0#8) sDone = .next t ∧ t.resps = sDone.resps ++ [0x00ba#16] ∧
    (0x00ba#16).extractLsb' 8 8 = 0x00#8 := ⟨_, rfl, by decide, by decide⟩
theorem wit_outside_done : sAbc.mode ≠ .done ∧ ∃ t, exec .finalize sAbc = .next t := ⟨by decide, _, rfl⟩
theorem wit_fatal : ∃ t, exec (.absorb 0x61#8) sLimit = .next t ∧
    codeByPriority (.absorb 0x61#8) sLimit ∈ [RespCode.lengthOverflow, .internal] := ⟨_, rfl, by decide⟩
theorem wit_short_block : ([] : List Byte).length ≠ 64 := by decide
theorem wit_error_not_reset : sError.mode = .error ∧ Instr.nop ≠ .reset := by decide
theorem wit_inv_reset : State.reset.Inv := ⟨by decide, by decide, by decide, by rintro _ ⟨⟩⟩
theorem wit_inv_abc : sAbc.Inv := ⟨by decide, by decide, by decide, by rintro _ ⟨⟩⟩
theorem wit_inv_limit : sLimit.Inv := ⟨by decide, by decide, by decide, by rintro _ ⟨⟩⟩
theorem wit_inv_done : sDone.Inv := ⟨by decide, by decide, by decide, by rintro _ ⟨⟩⟩
theorem wit_inv_error : sError.Inv := ⟨by decide, by decide, by decide, by rintro _ ⟨⟩⟩
theorem wit_inv_step : State.Inv { sDone with cmds := [0x0400#16] } ∧
    ∃ t, step { sDone with cmds := [0x0400#16] } = .next t := ⟨⟨by decide, by decide, by decide, by rintro _ ⟨⟩⟩, _, rfl⟩
theorem wit_buf_wf : Memory.wf sAbc.buf := by decide
theorem wit_hash_written : ∃ t, exec .finalize sAbc = .next t := ⟨_, rfl⟩
theorem wit_length_counts : sAbc.len.toNat ≤ 2 ^ 61 - 1 ∧ ∃ t, exec (.absorb 0x64#8) sAbc = .next t := ⟨by decide, _, rfl⟩
theorem wit_message : ([0x61#8, 0x62#8, 0x63#8] : List Byte).length ≤ 2 ^ 61 - 1 := by decide
theorem wit_platform : ∃ q, Platform.stepAt [sAbc, { sDone with cmds := [0x0400#16] }] 1 = some (.next q) := ⟨_, rfl⟩

end Sys2Proof.Tests
end

section
/-! The step with a command word waiting: what the command port gives, and what the step does with a word of the opcode
table (spec/00_scope.md R11, spec/10_state.md R12). -/

namespace Sys2Proof.Machine

/-- The oldest word is the one taken, and only the command port changes (spec/70_reset_and_hazards.md R112). -/
theorem State.takeCommand_of_cmds_cons {s : State} {w : CmdWord} {rest : List CmdWord} (hc : s.cmds = w :: rest) :
    s.takeCommand = some (w, s.setCmds rest) := by
  simp [State.takeCommand, hc]

/-- A taken word that decodes is performed on the state it was taken from (R11). -/
theorem step_of_takeCommand_decode_ok {s t : State} {w : CmdWord} {i : Instr} (ht : s.takeCommand = some (w, t))
    (hd : decode w = .ok i) : step s = exec i t := by
  simp [step, ht, hd]

/-- Settles O7: the head word is the one taken, and a taken word that decodes is performed. -/
theorem stepPerformsTheDecodedCommand : Obligations.StepPerformsTheDecodedCommand := by
  intro s w rest i hc hd
  exact step_of_takeCommand_decode_ok (State.takeCommand_of_cmds_cons hc) hd

end Sys2Proof.Machine
end

section
/-! What a command can do, said once: the effects `exec` can have on the state (spec/20_memory.md R36; spec/60_exceptions.md
R95, R96), and the one way it can stop (spec/10_state.md R19). -/

namespace Sys2Proof.Machine

/-- The commands that read the digest or the status view (spec/42_accumulator.md R75, R76, R77). -/
def IsReadCommand : Instr → Prop
  | .rddig _ | .rdhex _ | .rdstat _ => True
  | _ => False

/-- The Hash State a FINALIZE of the held bytes `bs` leaves: one fold of the padded tail, or two
(spec/40_block_assembler.md R57, R59). -/
def State.finalHash (s : State) (bs : List Byte) : HashState :=
  if s.bufCnt ≤ 55 then compress (bs ++ padBytes s.len) s.hs
  else compress ((bs ++ padBytes s.len).drop 64) (compress ((bs ++ padBytes s.len).take 64) s.hs)

/-- BUF and L after ABSORB has stored `d` and counted it, before any fold (R54). -/
def State.storeByte (s : State) (d : Byte) : State := (s.setBuf (s.buf.insert s.bufCnt d)).setLen (s.len + 1)

/-- `CommandEffect s i t`: a completing command `i` may take the engine from `s` to `t`. One case per way to complete. -/
inductive CommandEffect (s : State) : Instr → State → Prop
  | nop : CommandEffect s .nop (s.respond 0x00#8)
  | reset : CommandEffect s .reset (s.newComputation.respond 0x00#8)
  | rejects {i : Instr} {c : RespCode} (hcode : codeByPriority i s = c)
      (hc : c ∈ [RespCode.inError, .wrongMode, .badIndex]) : CommandEffect s i (s.raiseReject c)
  | reads {i : Instr} (d : Byte) (hi : IsReadCommand i) (hcode : codeByPriority i s = .ok) :
      CommandEffect s i (s.respond d)
  | overflows (d : Byte) (hm : s.mode = .absorb) (hl : s.len.toNat = Config.maxMsgBytes) :
      CommandEffect s (.absorb d) (s.raiseFatal .lengthOverflow)
  | stores (d : Byte) (hm : s.mode = .absorb) (hl : s.len.toNat ≠ Config.maxMsgBytes) (hr : s.bufCnt ≠ 63) :
      CommandEffect s (.absorb d) ((s.storeByte d).respond 0x00#8)
  | folds (d : Byte) (bs : List Byte) (hm : s.mode = .absorb) (hl : s.len.toNat ≠ Config.maxMsgBytes)
      (hr : s.bufCnt = 63) (hbs : s.memRead 0 63 = .ok bs) :
      CommandEffect s (.absorb d) (((s.storeByte d).setHs (compress (bs ++ [d]) s.hs)).clearBuf.respond 0x00#8)
  | finalizes (bs : List Byte) (hm : s.mode = .absorb) (hbs : s.memRead 0 s.bufCnt = .ok bs) :
      CommandEffect s .finalize (((s.setHs (s.finalHash bs)).clearBuf.setMode .done).respond 0x00#8)

@[simp] theorem State.storeByte_hs (s : State) (d : Byte) : (s.storeByte d).hs = s.hs := rfl
@[simp] theorem State.storeByte_buf (s : State) (d : Byte) : (s.storeByte d).buf = s.buf.insert s.bufCnt d := rfl
@[simp] theorem State.storeByte_len (s : State) (d : Byte) : (s.storeByte d).len = s.len + 1 := rfl
@[simp] theorem State.storeByte_mode (s : State) (d : Byte) : (s.storeByte d).mode = s.mode := rfl
@[simp] theorem State.storeByte_errcode (s : State) (d : Byte) : (s.storeByte d).errcode = s.errcode := rfl
@[simp] theorem State.storeByte_cmds (s : State) (d : Byte) : (s.storeByte d).cmds = s.cmds := rfl
@[simp] theorem State.storeByte_resps (s : State) (d : Byte) : (s.storeByte d).resps = s.resps := rfl

/-- BUFCNT counts a stored byte modulo a block (spec/10_state.md R23). -/
theorem State.storeByte_bufCnt (s : State) (d : Byte) : (s.storeByte d).bufCnt = (s.bufCnt + 1) % 64 :=
  len_succ_mod s.len

/-- A read past its mode checks: a byte, or BAD_INDEX where the index picks nothing (spec/60_exceptions.md R89). -/
theorem CommandEffect.answerRead {s : State} {i : Instr} {b : Option Byte} (hi : IsReadCommand i)
    (hcode : codeByPriority i s = if b.isSome then .ok else .badIndex) : CommandEffect s i (s.answerRead b) := by
  cases b with
  | none => exact .rejects (by simpa using hcode) (by simp)
  | some d => exact .reads d hi (by simpa using hcode)

/-- Selectors 0 to 10 pick a status byte, and no other does (spec/10_state.md R25). -/
theorem State.isSome_statByte (s : State) (sel : Nat) : (s.statByte sel).isSome ↔ sel ≤ 10 := by
  by_cases h : sel ≤ 10
  · interval_cases sel <;> simp [State.statByte]
  · have hnone : s.statByte sel = none := by
      obtain ⟨k, rfl⟩ := Nat.exists_eq_add_of_le' (not_le.1 h)
      rfl
    simp [hnone, h]

/-- RDDIG is performed in DONE only, for the 32 digest bytes (R75). -/
theorem execRddig_effect {s t : State} {n : Byte} (h : execRddig n s = .next t) : CommandEffect s (.rddig n) t := by
  rw [execRddig_eq] at h
  injection h with h
  subst h
  cases hm : s.mode with
  | absorb => exact .rejects (by simp [codeByPriority, hm]) (by simp)
  | error => exact .rejects (by simp [codeByPriority, hm]) (by simp)
  | done =>
    refine .answerRead trivial ?_
    by_cases hn : n.toNat < 32
    · simp [codeByPriority, hm, hn, show ¬ 31 < n.toNat by omega]
    · simp [codeByPriority, hm, hn, show 31 < n.toNat by omega]

/-- RDHEX is performed in DONE only, for the 64 characters (R76). -/
theorem execRdhex_effect {s t : State} {n : Byte} (h : execRdhex n s = .next t) : CommandEffect s (.rdhex n) t := by
  rw [execRdhex_eq] at h
  injection h with h
  subst h
  cases hm : s.mode with
  | absorb => exact .rejects (by simp [codeByPriority, hm]) (by simp)
  | error => exact .rejects (by simp [codeByPriority, hm]) (by simp)
  | done =>
    refine .answerRead trivial ?_
    by_cases hn : n.toNat < 64
    · simp [codeByPriority, hm, hn, show ¬ 63 < n.toNat by omega]
    · simp [codeByPriority, hm, hn, show 63 < n.toNat by omega]

/-- RDSTAT is performed in every mode (R77). -/
theorem execRdstat_effect {s t : State} {sel : Byte} (h : execRdstat sel s = .next t) :
    CommandEffect s (.rdstat sel) t := by
  injection h with h
  subst h
  refine .answerRead trivial ?_
  by_cases hn : sel.toNat ≤ 10
  · simp [codeByPriority, State.isSome_statByte, indexOperand, hn]
  · simp [codeByPriority, State.isSome_statByte, indexOperand, hn, not_le.1 hn]

/-- ABSORB is rejected, overflows, stores its byte, or stores it and folds (R54, R55). -/
theorem execAbsorb_effect {s t : State} {d : Byte} (h : execAbsorb d s = .next t) : CommandEffect s (.absorb d) t := by
  rcases execAbsorb_next h with ⟨hm, rfl⟩ | ⟨hm, rfl⟩ | ⟨hm, hl, rfl⟩ | ⟨hm, hl, h⟩
  · exact .rejects (by simp [codeByPriority, hm]) (by simp)
  · exact .rejects (by simp [codeByPriority, hm]) (by simp)
  · exact .overflows d hm hl
  · rcases absorbByte_next h with ⟨hr, rfl⟩ | ⟨hr, bs, hbs, rfl⟩
    · exact .stores d hm hl hr
    · exact .folds d bs hm hl hr hbs

/-- FINALIZE is rejected, or folds the padded tail and enters DONE (R57). -/
theorem execFinalize_effect {s t : State} (h : execFinalize s = .next t) : CommandEffect s .finalize t := by
  rcases execFinalize_next h with ⟨hm, rfl⟩ | ⟨hm, rfl⟩ | ⟨hm, h⟩
  · exact .rejects (by simp [codeByPriority, hm]) (by simp)
  · exact .rejects (by simp [codeByPriority, hm]) (by simp)
  · obtain ⟨bs, hbs, rfl⟩ := finalizeTail_next h
    exact .finalizes bs hm hbs

/-- A command that completes has one of the listed effects. -/
theorem exec_effect {i : Instr} {s t : State} (h : exec i s = .next t) : CommandEffect s i t := by
  cases i with
  | nop => cases h; exact .nop
  | reset => cases h; exact .reset
  | absorb d => exact execAbsorb_effect h
  | finalize => exact execFinalize_effect h
  | rddig n => exact execRddig_effect h
  | rdhex n => exact execRdhex_effect h
  | rdstat sel => exact execRdstat_effect h

/-- The outcome is a next state, or, in mode ABSORB, the fault of a byte below BUFCNT that holds no value (R19). -/
def State.CompletesOrLacksByte (s : State) (o : Outcome) : Prop :=
  (∃ t, o = .next t) ∨
    (s.mode = .absorb ∧ ∃ a, a < s.bufCnt ∧ s.buf.lookup a = none ∧ o = .fault (.bufNoValue a))

/-- Where the new byte fills the block, ABSORB is the block-full fold (R55). -/
theorem absorbByte_eq_foldFullBlock {s : State} (d : Byte) (h : s.bufCnt = 63) :
    absorbByte d s = foldFullBlock s (s.storeByte d) := by
  have hcnt : (s.storeByte d).bufCnt = 0 := by rw [State.storeByte_bufCnt, h]
  rw [absorbByte, State.memWrite_bufCnt]
  exact if_pos hcnt

/-- ABSORB past its checks stops only where a full block lacks a byte, and never for the byte it has just stored. -/
theorem absorbByte_completesOrLacksByte {s : State} (d : Byte) (hm : s.mode = .absorb) :
    s.CompletesOrLacksByte (absorbByte d s) := by
  by_cases h63 : s.bufCnt = 63
  · rw [absorbByte_eq_foldFullBlock d h63]
    cases hr : (s.storeByte d).memRead 0 64 with
    | ok blk =>
      refine .inl ⟨((s.storeByte d).setHs (compress blk s.hs)).clearBuf.respond 0x00#8, ?_⟩
      simp [foldFullBlock, hr, foldBlock_of_length (State.memRead_length hr)]
    | error f =>
      obtain ⟨a, -, ha, hnone, rfl⟩ := State.memRead_error hr (by decide)
      have hne : a ≠ s.bufCnt := by rintro rfl; simp at hnone
      rw [State.storeByte_buf, Memory.lookup_insert_ne _ _ hne] at hnone
      exact .inr ⟨hm, a, by omega, hnone, by simp [foldFullBlock, hr]⟩
  · exact .inl ⟨_, absorbByte_store d h63⟩

/-- FINALIZE past its mode checks stops only where the tail lacks a byte. -/
theorem finalizeTail_completesOrLacksByte {s : State} (hm : s.mode = .absorb) :
    s.CompletesOrLacksByte (finalizeTail s) := by
  cases hr : s.memRead 0 s.bufCnt with
  | ok bs => exact .inl ⟨_, finalizeTail_of_read hr⟩
  | error f =>
    have hlt := s.bufCnt_lt
    obtain ⟨a, -, ha, hnone, rfl⟩ := State.memRead_error hr (by omega)
    exact .inr ⟨hm, a, by omega, hnone, by simp [finalizeTail, hr]⟩

/-- Every command completes, or stops on a byte without a value. -/
theorem exec_completesOrLacksByte (i : Instr) (s : State) : s.CompletesOrLacksByte (exec i s) := by
  cases i with
  | nop => exact .inl ⟨_, rfl⟩
  | reset => exact .inl ⟨_, rfl⟩
  | absorb d =>
    change s.CompletesOrLacksByte (execAbsorb d s)
    cases hm : s.mode with
    | done => exact .inl ⟨s.raiseReject .wrongMode, by simp [execAbsorb, hm]⟩
    | error => exact .inl ⟨s.raiseReject .inError, by simp [execAbsorb, hm]⟩
    | absorb =>
      by_cases hl : s.len.toNat = Config.maxMsgBytes
      · exact .inl ⟨s.raiseFatal .lengthOverflow, by simp [execAbsorb, hm, hl]⟩
      · rw [execAbsorb_open d hm hl]
        exact absorbByte_completesOrLacksByte d hm
  | finalize =>
    change s.CompletesOrLacksByte (execFinalize s)
    cases hm : s.mode with
    | done => exact .inl ⟨s.raiseReject .wrongMode, by simp [execFinalize, hm]⟩
    | error => exact .inl ⟨s.raiseReject .inError, by simp [execFinalize, hm]⟩
    | absorb =>
      simp only [execFinalize, hm]
      exact finalizeTail_completesOrLacksByte hm
  | rddig n => exact .inl ⟨_, execRddig_eq n s⟩
  | rdhex n => exact .inl ⟨_, execRdhex_eq n s⟩
  | rdstat sel => exact .inl ⟨_, rfl⟩

/-- Settles O13: of the two outcomes a command can have, only the fault stops, and it names the missing byte. -/
theorem execFaultsOnlyOnAByteWithoutValue : Obligations.ExecFaultsOnlyOnAByteWithoutValue := by
  intro i s
  rcases exec_completesOrLacksByte i s with ⟨t, ht⟩ | ⟨-, a, ha, hnone, hf⟩
  · simp [ht]
  · refine ⟨fun f h => ⟨a, ha, hnone, ?_⟩, by simp [hf]⟩
    rw [hf] at h
    injection h with h
    exact h.symm

end Sys2Proof.Machine
end

section
/-! What a step can do (spec/00_scope.md R11), and the invariant of the engine: it holds at reset, every step keeps it, and
with it every step completes. -/

namespace Sys2Proof.Machine

/-- With no command waiting a step holds the state (spec/60_exceptions.md R106). -/
theorem step_of_cmds_nil {s : State} (hc : s.cmds = []) : step s = .next s := by
  simp [step, State.takeCommand, hc, State.idle]

/-- A waiting word that no command matches is taken and answered ILLEGAL (spec/30_encoding.md R49). -/
theorem step_of_decode_error {s : State} {w : CmdWord} {rest : List CmdWord} {e : IllegalWord}
    (hc : s.cmds = w :: rest) (hd : decode w = .error e) : step s = .next (s.setCmds rest).answerIllegal := by
  simp [step, State.takeCommand_of_cmds_cons hc, hd]

/-- The three steps there are: none waiting, an illegal word, a command. -/
theorem step_cases (s : State) :
    (s.cmds = [] ∧ step s = .next s) ∨
    ∃ w rest, s.cmds = w :: rest ∧
      ((∃ e, decode w = .error e ∧ step s = .next (s.setCmds rest).answerIllegal) ∨
        ∃ i, decode w = .ok i ∧ step s = exec i (s.setCmds rest)) := by
  cases hc : s.cmds with
  | nil => exact .inl ⟨rfl, step_of_cmds_nil hc⟩
  | cons w rest =>
    refine .inr ⟨w, rest, rfl, ?_⟩
    cases hd : decode w with
    | error e => exact .inl ⟨e, rfl, step_of_decode_error hc hd⟩
    | ok i => exact .inr ⟨i, rfl, step_of_takeCommand_decode_ok (State.takeCommand_of_cmds_cons hc) hd⟩

/-- A property of the state that the command port, an illegal word and every command keep is kept by every step. -/
theorem step_preserves {P : State → Prop} (hcmds : ∀ s c, P s → P (s.setCmds c))
    (hillegal : ∀ s, P s → P s.answerIllegal) (hexec : ∀ i s t, P s → exec i s = .next t → P t)
    {s t : State} (hs : P s) (h : step s = .next t) : P t := by
  rcases step_cases s with ⟨-, he⟩ | ⟨w, rest, -, ⟨e, -, he⟩ | ⟨i, -, he⟩⟩ <;> rw [he] at h
  · cases h; exact hs
  · cases h; exact hillegal _ (hcmds s rest hs)
  · exact hexec i _ t (hcmds s rest hs) h

/-- An entry that reads as no value is listed nowhere. -/
theorem Memory.not_mem_keys_of_lookup_none {m : Memory} {a : Nat} (h : m.lookup a = none) : a ∉ m.map Prod.fst := by
  induction m with
  | nil => simp
  | cons c m ih =>
    obtain ⟨k, v⟩ := c
    by_cases hk : k = a
    · simp [Memory.lookup, hk] at h
    · simp only [Memory.lookup, if_neg hk] at h
      simpa [Ne.symm hk] using ih h

/-- BUF outside DONE lists exactly the entries below BUFCNT. -/
theorem State.bufFilled.keys {s : State} (h : s.bufFilled) (hm : s.mode ≠ .done) :
    s.buf.map Prod.fst = List.range s.bufCnt := by
  rwa [State.bufFilled, if_neg hm] at h

/-- One more allowed response keeps the invariant. -/
theorem State.Inv.pushResp {s : State} {r : RespWord} (h : s.Inv) (hr : respAllowed r) : (s.pushResp r).Inv := by
  obtain ⟨hbuf, hlen, herr, hresps⟩ := h
  refine ⟨hbuf, hlen, herr, ?_⟩
  rintro r' hr'
  rcases List.mem_append.1 hr' with hr' | hr'
  · exact hresps r' hr'
  · rwa [List.mem_singleton.1 hr']

/-- The command port is no part of the invariant. -/
theorem State.Inv.setCmds {s : State} (h : s.Inv) (c : List CmdWord) : (s.setCmds c).Inv := h

/-- The state RESET leaves meets the invariant, whatever it was before (spec/42_accumulator.md R71). -/
theorem State.Inv.newComputation {s : State} (h : s.Inv) : s.newComputation.Inv := by
  obtain ⟨-, -, -, hresps⟩ := h
  exact ⟨rfl, by simp, by simp [State.errcodeAgrees], hresps⟩

/-- The length overflow keeps the invariant: it happens at the limit, and BUF stays (spec/60_exceptions.md R91, R92). -/
theorem State.Inv.raiseFatal_lengthOverflow {s : State} (h : s.Inv) (hm : s.mode = .absorb)
    (hl : s.len.toNat = Config.maxMsgBytes) : (s.raiseFatal .lengthOverflow).Inv := by
  have hmark : (s.setMode .error |>.setErrcode RespCode.lengthOverflow.code).Inv := by
    obtain ⟨hbuf, hlen, -, hresps⟩ := h
    refine ⟨?_, hlen, ?_, hresps⟩
    · simpa [State.bufFilled] using hbuf.keys (by simp [hm])
    · simp [State.errcodeAgrees, hl]
  exact hmark.pushResp (respAllowed_zero _)

/-- L below its limit counts up without wrapping (spec/10_state.md R20). -/
theorem len_succ_toNat {l : Len} (h : l.toNat ≤ Config.maxMsgBytes) : (l + 1).toNat = l.toNat + 1 := by
  rw [maxMsgBytes_eq] at h
  exact BitVec.toNat_add_of_lt (by simp; omega)

/-- A stored byte takes the entry at BUFCNT, the next one after those held. -/
theorem State.bufFilled.storeByte {s : State} (h : s.bufFilled) (d : Byte) (hm : s.mode = .absorb) (hr : s.bufCnt ≠ 63) :
    (s.storeByte d).bufFilled := by
  have hkeys := h.keys (by simp [hm])
  have hcnt : (s.storeByte d).bufCnt = s.bufCnt + 1 := by
    have hlt := s.bufCnt_lt
    rw [State.storeByte_bufCnt]
    omega
  have hins : s.buf.insert s.bufCnt d = s.buf ++ [(s.bufCnt, d)] :=
    Memory.insert_append d fun x hx => by rwa [hkeys, List.mem_range] at hx
  simp [State.bufFilled, hm, hcnt, hins, hkeys, List.range_succ]

/-- Counting a byte below the limit keeps every part of the invariant but the shape of BUF. -/
theorem State.Inv.of_len_succ {s t : State} (h : s.Inv) (hm : s.mode = .absorb) (hl : s.len.toNat ≠ Config.maxMsgBytes)
    (hbuf : t.bufFilled) (hlen : t.len = s.len + 1) (hmode : t.mode = s.mode) (herrcode : t.errcode = s.errcode)
    (hresps : t.resps = s.resps) : t.Inv := by
  obtain ⟨-, hle, herr, hall⟩ := h
  refine ⟨hbuf, ?_, ?_, hresps ▸ hall⟩
  · rw [hlen, len_succ_toNat hle]; omega
  · simpa [State.errcodeAgrees, hmode, herrcode, hm] using herr

/-- An emptied BUF is what the invariant asks for in DONE, and elsewhere at a block boundary. -/
theorem State.bufFilled_of_buf_nil {s : State} (hbuf : s.buf = []) (hcnt : s.mode = .done ∨ s.bufCnt = 0) :
    s.bufFilled := by
  rcases hcnt with hm | hcnt
  · simp [State.bufFilled, hbuf, hm]
  · simp [State.bufFilled, hbuf, hcnt]

/-- Folding the tail and entering DONE keeps the invariant (spec/40_block_assembler.md R57). -/
theorem State.Inv.enterDone {s : State} (h : s.Inv) (hm : s.mode = .absorb) (hash : HashState) :
    ((s.setHs hash).clearBuf.setMode .done).Inv := by
  obtain ⟨-, hlen, herr, hresps⟩ := h
  refine ⟨State.bufFilled_of_buf_nil rfl (.inl rfl), hlen, ?_, hresps⟩
  simpa [State.errcodeAgrees, hm] using herr

/-- Every effect of a command keeps the invariant. -/
theorem CommandEffect.inv {s t : State} {i : Instr} (he : CommandEffect s i t) (h : s.Inv) : t.Inv := by
  cases he with
  | nop => exact h.pushResp (respAllowed_ok _)
  | reset => exact h.newComputation.pushResp (respAllowed_ok _)
  | rejects => exact h.pushResp (respAllowed_zero _)
  | reads d => exact h.pushResp (respAllowed_ok d)
  | overflows d hm hl => exact h.raiseFatal_lengthOverflow hm hl
  | stores d hm hl hr =>
    have hbuf : s.bufFilled := h.1
    have hstored : (s.storeByte d).Inv := h.of_len_succ hm hl (hbuf.storeByte d hm hr) rfl rfl rfl rfl
    exact hstored.pushResp (respAllowed_ok _)
  | folds d bs hm hl hr hbs =>
    have hcnt : (s.storeByte d).bufCnt = 0 := by rw [State.storeByte_bufCnt, hr]
    have hfolded : ((s.storeByte d).setHs (compress (bs ++ [d]) s.hs)).clearBuf.Inv :=
      h.of_len_succ hm hl (State.bufFilled_of_buf_nil rfl (.inr hcnt)) rfl rfl rfl rfl
    exact hfolded.pushResp (respAllowed_ok _)
  | finalizes bs hm hbs => exact (h.enterDone hm _).pushResp (respAllowed_ok _)

/-- Settles O43: the command port is no part of the invariant, an illegal word adds an allowed response, and every effect
of a command keeps it. -/
theorem everyStepKeepsTheInvariant : Obligations.EveryStepKeepsTheInvariant := fun _ _ hs h =>
  step_preserves (fun _ c hs => hs.setCmds c) (fun _ hs => hs.pushResp (respAllowed_zero _))
    (fun _ _ _ hs h => (exec_effect h).inv hs) hs h

/-- With the invariant every byte a command reads is held, so the command completes (R19). -/
theorem State.Inv.exec_completes {s : State} (h : s.Inv) (i : Instr) : ∃ t, exec i s = .next t := by
  rcases exec_completesOrLacksByte i s with hnext | ⟨hm, a, ha, hnone, -⟩
  · exact hnext
  · have hbuf : s.bufFilled := h.1
    refine absurd ?_ (Memory.not_mem_keys_of_lookup_none hnone)
    rw [hbuf.keys (by simp [hm])]
    exact List.mem_range.2 ha

/-- Settles O44: holding the state and answering ILLEGAL always complete, and a command does by the invariant. -/
theorem invariantStatesNeverStop : Obligations.InvariantStatesNeverStop := by
  intro s hs
  rcases step_cases s with ⟨-, he⟩ | ⟨w, rest, -, ⟨e, -, he⟩ | ⟨i, -, he⟩⟩
  · exact ⟨_, he⟩
  · exact ⟨_, he⟩
  · rw [he]
    exact (hs.setCmds rest).exec_completes i

/-- Settles O42: at reset BUF is empty, L is 0, ERRCODE is 0x00 and no response has been given. -/
theorem invariantHoldsAtReset : Obligations.InvariantHoldsAtReset :=
  ⟨rfl, by decide, by decide, by simp [State.reset]⟩

end Sys2Proof.Machine
end

section
/-! What writes each part of the state: BUF, the Hash State and L (spec/10_state.md R14, R19, R20), and the reset values
(R27). -/

namespace Sys2Proof.Machine

/-- A command leaves BUF alone, empties it, or writes the entry at BUFCNT (R19). -/
theorem CommandEffect.buf {s t : State} {i : Instr} (he : CommandEffect s i t) :
    t.buf = s.buf ∨ t.buf = [] ∨ ∃ d, t.buf = s.buf.insert s.bufCnt d := by
  cases he with
  | nop | rejects | reads | overflows => exact .inl rfl
  | reset | folds | finalizes => exact .inr (.inl rfl)
  | stores d => exact .inr (.inr ⟨d, rfl⟩)

/-- Settles O45: each of the three things a command does to BUF keeps its canonical form. -/
theorem everyStepKeepsTheBufferCanonical : Obligations.EveryStepKeepsTheBufferCanonical := by
  intro s t hs h
  refine step_preserves (P := fun s => s.buf.wf) (fun _ _ hs => hs) (fun _ hs => hs) ?_ hs h
  intro i s t hs h
  rcases (exec_effect h).buf with hbuf | hbuf | ⟨d, hbuf⟩ <;> rw [hbuf]
  · exact hs
  · exact Memory.nil_wf
  · exact Memory.insert_wf d hs s.bufCnt_lt

/-- FINALIZE folds one block of 64 bytes, or two (spec/40_block_assembler.md R59). -/
theorem State.finalHash_eq_foldl {s : State} {bs : List Byte} (h : bs.length = s.bufCnt) :
    ∃ blks : List (List Byte), (blks.length = 1 ∨ blks.length = 2) ∧ (∀ b ∈ blks, b.length = 64) ∧
      s.finalHash bs = blks.foldl (fun h b => compress b h) s.hs := by
  have hlen : (bs ++ padBytes s.len).length = if s.bufCnt ≤ 55 then 64 else 128 := tail_length h
  by_cases hr : s.bufCnt ≤ 55
  · rw [if_pos hr] at hlen
    exact ⟨[bs ++ padBytes s.len], .inl rfl, by simpa using hlen, by simp [State.finalHash, hr]⟩
  · rw [if_neg hr] at hlen
    refine ⟨[(bs ++ padBytes s.len).take 64, (bs ++ padBytes s.len).drop 64], .inr rfl, ?_, by
      simp [State.finalHash, hr]⟩
    intro b hb
    rcases List.mem_pair.1 hb with rfl | rfl
    · rw [List.length_take, hlen]; rfl
    · rw [List.length_drop, hlen]

/-- Settles O46: of the effects of a command, RESET, the block-full fold and FINALIZE write the Hash State. -/
theorem hashStateIsWrittenByResetAndFoldOnly : Obligations.HashStateIsWrittenByResetAndFoldOnly := by
  intro i s t h
  cases exec_effect h with
  | nop | rejects | reads | overflows | stores => exact .inl rfl
  | reset => exact .inr (.inl ⟨rfl, rfl⟩)
  | folds d bs hm hl hr hbs =>
    refine .inr (.inr ⟨hm, .inl ⟨d, rfl⟩, [bs ++ [d]], .inl rfl, ?_, rfl⟩)
    simp [State.memRead_length hbs]
  | finalizes bs hm hbs =>
    obtain ⟨blks, hcount, hlen, hhs⟩ := State.finalHash_eq_foldl (State.memRead_length hbs)
    exact .inr (.inr ⟨hm, .inr rfl, blks, hcount.imp_right fun h2 => ⟨h2, rfl⟩, hlen, hhs⟩)

/-- An ABSORB past its checks is answered OK (spec/60_exceptions.md R95). -/
theorem codeByPriority_absorb_open {s : State} (d : Byte) (hm : s.mode = .absorb)
    (hl : s.len.toNat ≠ Config.maxMsgBytes) : codeByPriority (.absorb d) s = .ok := by
  simp [codeByPriority, hm, hl]

/-- The number of bytes counted in L after a command that completes: 0 after RESET, one more after an ABSORB answered OK,
and as many as before otherwise (R20). -/
def lenAfter (i : Instr) (s : State) : Nat :=
  match i with
  | .reset => 0
  | .absorb _ => if codeByPriority i s = .ok then s.len.toNat + 1 else s.len.toNat
  | _ => s.len.toNat

/-- A command that is not answered OK counts no byte. -/
theorem lenAfter_of_code_ne_ok {i : Instr} {s : State} (h : codeByPriority i s ≠ .ok) : lenAfter i s = s.len.toNat := by
  cases i with
  | reset => exact absurd rfl h
  | absorb d => exact if_neg h
  | nop | finalize | rddig | rdhex | rdstat => rfl

/-- A read counts no byte. -/
theorem lenAfter_of_read {i : Instr} {s : State} (h : IsReadCommand i) : lenAfter i s = s.len.toNat := by
  cases i with
  | rddig | rdhex | rdstat => rfl
  | nop | reset | absorb | finalize => exact h.elim

/-- An ABSORB past its checks counts one byte. -/
theorem lenAfter_absorb_open {s : State} (d : Byte) (hm : s.mode = .absorb) (hl : s.len.toNat ≠ Config.maxMsgBytes) :
    lenAfter (.absorb d) s = s.len.toNat + 1 :=
  if_pos (codeByPriority_absorb_open d hm hl)

/-- L after a command, where it was in its range before. -/
theorem CommandEffect.len_toNat {s t : State} {i : Instr} (he : CommandEffect s i t)
    (h : s.len.toNat ≤ Config.maxMsgBytes) : t.len.toNat = lenAfter i s := by
  cases he with
  | nop | reset | finalizes => rfl
  | rejects hcode hc =>
    have hne : codeByPriority i s ≠ .ok := by rw [hcode]; rintro rfl; simp at hc
    exact (lenAfter_of_code_ne_ok hne).symm
  | reads d hi => exact (lenAfter_of_read hi).symm
  | overflows d hm hl =>
    have hne : codeByPriority (.absorb d) s ≠ .ok := by simp [codeByPriority, hm, hl]
    exact (lenAfter_of_code_ne_ok hne).symm
  | stores d hm hl => exact (len_succ_toNat h).trans (lenAfter_absorb_open d hm hl).symm
  | folds d bs hm hl => exact (len_succ_toNat h).trans (lenAfter_absorb_open d hm hl).symm

/-- No command takes L out of its range (R20). -/
theorem CommandEffect.len_le {s t : State} {i : Instr} (he : CommandEffect s i t)
    (h : s.len.toNat ≤ Config.maxMsgBytes) : t.len.toNat ≤ Config.maxMsgBytes := by
  cases he with
  | nop | rejects | reads | overflows | finalizes => exact h
  | reset => exact Nat.zero_le _
  | stores d hm hl => exact (len_succ_toNat h).trans_le (by omega)
  | folds d bs hm hl => exact (len_succ_toNat h).trans_le (by omega)

/-- Settles O47: L after a command is `lenAfter`, and in range. -/
theorem lengthCountsAcceptedBytes : Obligations.LengthCountsAcceptedBytes := by
  intro i s t hs h
  rw [← maxMsgBytes_eq] at hs ⊢
  refine ⟨(exec_effect h).len_le hs, ((exec_effect h).len_toNat hs).trans ?_⟩
  cases i <;> rfl

/-- The status view of a state with L, MODE and ERRCODE cleared reads 0x00 throughout (R25). -/
theorem State.statByte_eq_zero {t : State} (hlen : t.len = 0#64) (hmode : t.mode = .absorb) (herr : t.errcode = 0x00#8)
    {sel : Nat} (h : sel ≤ 10) : t.statByte sel = some 0x00#8 := by
  interval_cases sel <;> simp [State.statByte, Mode.code, hlen, hmode, herr]

/-- Settles O16: power-on reset and RESET write the same values, and the status view follows from them. -/
theorem resetValues : Obligations.ResetValues := by
  refine ⟨rfl, fun t ht => ?_⟩
  have hfields : t.hs = iv ∧ t.len = 0#64 ∧ t.mode = .absorb ∧ t.errcode = 0x00#8 ∧ t.buf = [] := by
    rcases ht with rfl | ⟨s, hs⟩
    · exact ⟨rfl, rfl, rfl, rfl, rfl⟩
    · cases hs; exact ⟨rfl, rfl, rfl, rfl, rfl⟩
  obtain ⟨hhs, hlen, hmode, herr, hbuf⟩ := hfields
  exact ⟨hhs, hlen, hmode, herr, by simp [hbuf], fun sel hsel => State.statByte_eq_zero hlen hmode herr hsel⟩

end Sys2Proof.Machine
end

section
/-! The ROM tables against their definition: IV and K are fractional parts of roots of primes (spec/10_state.md R15,
R16). -/

namespace Sys2Proof.Machine

/-- The primes up to 311, in order. -/
def primesUpTo311 : List Nat := (List.range 312).filter Nat.Prime

/-- `w` is the first 32 bits of the fractional part of the `k`-th root of `p`, whose integer part is below 8: `c` and those
bits make the floor of `2^32` times the root. -/
def IsRootFraction (k p : Nat) (w : Word) : Prop :=
  ∃ c, c < 8 ∧ (c * 2 ^ 32 + w.toNat) ^ k ≤ p * 2 ^ (32 * k) ∧ p * 2 ^ (32 * k) < (c * 2 ^ 32 + w.toNat + 1) ^ k

/-- The floor of the scaled root, and the word as its low 32 bits. -/
theorem IsRootFraction.exists_floor {k p : Nat} {w : Word} (h : IsRootFraction k p w) :
    ∃ n, n ^ k ≤ p * 2 ^ (32 * k) ∧ p * 2 ^ (32 * k) < (n + 1) ^ k ∧ w.toNat = n % 2 ^ 32 := by
  obtain ⟨c, -, hle, hlt⟩ := h
  exact ⟨c * 2 ^ 32 + w.toNat, hle, hlt, by have := w.isLt; omega⟩

/-- The list is its 64 primes. -/
theorem primesUpTo311_eq : primesUpTo311 =
    [2, 3, 5, 7, 11, 13, 17, 19, 23, 29, 31, 37, 41, 43, 47, 53, 59, 61, 67, 71, 73, 79, 83, 89, 97, 101, 103, 107, 109,
      113, 127, 131, 137, 139, 149, 151, 157, 163, 167, 173, 179, 181, 191, 193, 197, 199, 211, 223, 227, 229, 233, 239,
      241, 251, 257, 263, 269, 271, 277, 281, 283, 293, 307, 311] := by
  decide +kernel

theorem primesUpTo311_pairwise_lt : primesUpTo311.Pairwise (· < ·) := List.pairwise_lt_range.filter _

theorem mem_primesUpTo311 (p : Nat) : p ∈ primesUpTo311 ↔ p ≤ 311 ∧ 2 ≤ p ∧ ∀ d, d ∣ p → d = 1 ∨ d = p := by
  simp [primesUpTo311, Nat.prime_def, Nat.lt_succ_iff]

/-- The words of IV, one by one (R15). -/
theorem iv_isRootFraction : ∀ i, i < 8 → IsRootFraction 2 (primesUpTo311.getD i 0) (iv.toList.getD i 0) := by
  rw [primesUpTo311_eq]
  unfold IsRootFraction
  decide +kernel

/-- The words of K, one by one (R16). -/
theorem kTable_isRootFraction : ∀ t, t < 64 → IsRootFraction 3 (primesUpTo311.getD t 0) (kTable.getD t 0) := by
  rw [primesUpTo311_eq]
  unfold IsRootFraction
  decide +kernel

/-- Settles O28: the list of primes is a filtered range, and each word of the tables is a root's fraction. -/
theorem constantsAreFractionsOfPrimeRoots : Obligations.ConstantsAreFractionsOfPrimeRoots :=
  ⟨primesUpTo311, primesUpTo311_pairwise_lt, by rw [primesUpTo311_eq]; rfl, mem_primesUpTo311,
    fun i hi => (iv_isRootFraction i hi).exists_floor, kTable_length,
    fun t ht => (kTable_isRootFraction t ht).exists_floor⟩

end Sys2Proof.Machine
end

section
/-! The byte order of the two things the engine serializes: the length field of the padding and the digest
(spec/20_memory.md R32, R33; spec/00_scope.md R9). -/

namespace Sys2Proof.Machine

/-- `BE64BYTES(v)` read most significant byte first is `v`. -/
theorem be64Bytes_foldl (v : Len) : (be64Bytes v).foldl (fun n b => n * 256 + b.toNat) 0 = v.toNat := by
  have hv := v.isLt
  simp only [be64Bytes, List.foldl_cons, List.foldl_nil, BitVec.extractLsb'_toNat, Nat.shiftRight_eq_div_pow]
  omega

/-- The padding ends with its length field (spec/40_block_assembler.md R58). -/
theorem padBytes_drop_lengthField (l : Len) :
    (padBytes l).drop ((padBytes l).length - 8) = be64Bytes (BitVec.ofNat 64 (8 * l.toNat)) := by
  have hsplit : padBytes l =
      (0x80#8 :: List.replicate (padZeros l) 0x00#8) ++ be64Bytes (BitVec.ofNat 64 (8 * l.toNat)) := rfl
  rw [padBytes_length, hsplit]
  exact List.drop_left' (by simp)

/-- Settles O22: the padding ends with `BE64BYTES(8·L)`, and below the length limit `8·L` fits its 64 bits. -/
theorem lengthFieldIsTheExactBitLength : Obligations.LengthFieldIsTheExactBitLength := by
  intro l hl
  have hfits : 8 * l.toNat < 2 ^ 64 := by omega
  rw [padBytes_drop_lengthField, be64Bytes_foldl, BitVec.toNat_ofNat, Nat.mod_eq_of_lt hfits]

/-- Byte j of a word is its bits 31 − 8j to 24 − 8j. -/
theorem be32Bytes_getElem? (w : Word) {j : Nat} (hj : j < 4) :
    (be32Bytes w)[j]? = some (w.extractLsb' (24 - 8 * j) 8) := by
  interval_cases j <;> rfl

/-- Words serialized one after the other: byte 4i + j is byte j of word i. -/
theorem flatMap_be32Bytes_getElem? (ws : List Word) {i j : Nat} (hi : i < ws.length) (hj : j < 4) :
    (ws.flatMap be32Bytes)[4 * i + j]? = (be32Bytes (ws.getD i 0))[j]? := by
  induction ws generalizing i with
  | nil => simp at hi
  | cons w ws ih =>
    rw [List.flatMap_cons]
    cases i with
    | zero => simpa using List.getElem?_append_left (l₂ := ws.flatMap be32Bytes) (be32Bytes_length w ▸ hj)
    | succ i =>
      rw [List.getElem?_append_right (by simp; omega), be32Bytes_length,
        show 4 * (i + 1) + j - 4 = 4 * i + j by omega, ih (by simpa using hi), List.getD_cons_succ]

/-- Digest byte 4i + j is byte j of word i of the Hash State (spec/42_accumulator.md R73). -/
theorem digestBytes_getElem? (hs : HashState) {i j : Nat} (hi : i < 8) (hj : j < 4) :
    (digestBytes hs)[4 * i + j]? = some ((hs.toList.getD i 0).extractLsb' (24 - 8 * j) 8) := by
  rw [digestBytes, flatMap_be32Bytes_getElem? _ (by simpa using hi) hj, be32Bytes_getElem? _ hj]

/-- Settles O33: the words come in order, and each gives its four bytes most significant first. -/
theorem digestIsWordMajorBigEndian : Obligations.DigestIsWordMajorBigEndian := fun hs =>
  ⟨digestBytes_length hs, fun _ _ hi hj => digestBytes_getElem? hs hi hj⟩

end Sys2Proof.Machine
end

section
/-! NOP and the read commands push one response word and change nothing else (spec/20_memory.md R36). -/

namespace Sys2Proof.Machine

/-- The response word of a read past its mode checks: the byte picked, or BAD_INDEX (spec/60_exceptions.md R89). -/
def readWord : Option Byte → RespWord
  | some d => respWord .ok d
  | none => respWord .badIndex 0x00#8

/-- The response word of a digest read: outside DONE it is a rejection, whatever the index (R95). -/
def digestReadWord (m : Mode) (b : Option Byte) : RespWord :=
  match m with
  | .error => respWord .inError 0x00#8
  | .absorb => respWord .wrongMode 0x00#8
  | .done => readWord b

theorem exec_nop_eq_pushResp (s : State) : exec .nop s = .next (s.pushResp (respWord .ok 0x00#8)) := rfl

theorem exec_rddig_eq_pushResp (n : Byte) (s : State) :
    exec (.rddig n) s = .next (s.pushResp (digestReadWord s.mode (digestBytes s.hs)[n.toNat]?)) := by
  change execRddig n s = _
  rw [execRddig_eq]
  cases s.mode with
  | error => rfl
  | absorb => rfl
  | done => exact congrArg _ (s.answerRead_eq _)

theorem exec_rdhex_eq_pushResp (n : Byte) (s : State) :
    exec (.rdhex n) s = .next (s.pushResp (digestReadWord s.mode (hexChars s.hs)[n.toNat]?)) := by
  change execRdhex n s = _
  rw [execRdhex_eq]
  cases s.mode with
  | error => rfl
  | absorb => rfl
  | done => exact congrArg _ (s.answerRead_eq _)

theorem exec_rdstat_eq_pushResp (sel : Byte) (s : State) :
    exec (.rdstat sel) s = .next (s.pushResp (readWord (s.statByte sel.toNat))) :=
  congrArg _ (s.answerRead_eq _)

/-- A command that only responds, with a word that does not depend on the words given before, repeats its answer. -/
theorem exec_repeats_of_eq_pushResp {i : Instr} {answer : State → RespWord}
    (hexec : ∀ s, exec i s = .next (s.pushResp (answer s))) (hanswer : ∀ s r, answer (s.pushResp r) = answer s)
    (s : State) : ∃ r, exec i s = .next { s with resps := s.resps ++ [r] } ∧
      exec i { s with resps := s.resps ++ [r] } = .next { s with resps := s.resps ++ [r, r] } := by
  refine ⟨answer s, hexec s, ?_⟩
  calc exec i (s.pushResp (answer s))
      = .next ((s.pushResp (answer s)).pushResp (answer s)) := by rw [hexec, hanswer]
    _ = .next { s with resps := s.resps ++ [answer s, answer s] } := by simp [State.pushResp]

/-- Settles O37: the answers of the four commands are functions of MODE, HS, L and ERRCODE. -/
theorem readsHaveNoSideEffects : Obligations.ReadsHaveNoSideEffects := by
  rintro i s (rfl | ⟨n, rfl⟩ | ⟨n, rfl⟩ | ⟨sel, rfl⟩)
  · exact exec_repeats_of_eq_pushResp exec_nop_eq_pushResp (fun _ _ => rfl) s
  · exact exec_repeats_of_eq_pushResp (exec_rddig_eq_pushResp n) (fun _ _ => rfl) s
  · exact exec_repeats_of_eq_pushResp (exec_rdhex_eq_pushResp n) (fun _ _ => rfl) s
  · exact exec_repeats_of_eq_pushResp (exec_rdstat_eq_pushResp sel) (fun _ _ => rfl) s

end Sys2Proof.Machine
end

section
/-! The command words: `encode` and `decode` are inverse, and the opcode table agrees with both (spec/30_encoding.md R47,
R48, R49). -/

namespace Sys2Proof

/-- The opcode number of a command, the arm of the decoder that reads it (R47). -/
def Instr.opcode : Instr → Nat
  | .nop => 0
  | .reset => 1
  | .absorb _ => 2
  | .finalize => 3
  | .rddig _ => 4
  | .rdhex _ => 5
  | .rdstat _ => 6

theorem opcField_row (i : Instr) : (opcField i.row.fixedBits).toNat = i.opcode := by
  cases i <;> simp only [Instr.row, Instr.opcode] <;> decide

/-- A word encodes a command when its two fields are that command's opcode and operand (R45). -/
theorem encode_eq_iff {i : Instr} {w : CmdWord} :
    encode i = w ↔ (opcField w).toNat = i.opcode ∧ opndField w = i.opnd := by
  obtain ⟨hopc, hopnd⟩ := encode_fields i
  rw [← opcField_row i, ← hopc, ← hopnd]
  constructor
  · rintro rfl; exact ⟨rfl, rfl⟩
  · rintro ⟨h1, h2⟩; exact word_ext (BitVec.eq_of_toNat_eq h1.symm) h2.symm

/-- The operand of NOP, RESET and FINALIZE is part of the match (R48). -/
theorem noOperand_eq_ok_iff {b : Byte} {i j : Instr} : noOperand b i = .ok j ↔ b = 0 ∧ i = j := by
  unfold noOperand
  split <;> simp_all

theorem exists_noOperand_eq_error_iff {b : Byte} {i : Instr} : (∃ e, noOperand b i = .error e) ↔ b ≠ 0 := by
  unfold noOperand
  split <;> simp_all

/-- The decoder reads back the command a word encodes. -/
@[simp] theorem decode_encode (i : Instr) : decode (encode i) = .ok i := by
  obtain ⟨hopc, hopnd⟩ := (encode_eq_iff (i := i)).1 rfl
  unfold decode
  rw [hopc, hopnd]
  cases i <;> rfl

/-- A word that decodes is the encoding of its command: the arm of the decoder that answers fixes both fields. -/
theorem encode_of_decode_ok {w : CmdWord} {i : Instr} (h : decode w = .ok i) : encode i = w := by
  rw [encode_eq_iff]
  unfold decode at h
  split at h
  case h_1 hopc | h_2 hopc | h_4 hopc =>
    obtain ⟨hopnd, rfl⟩ := noOperand_eq_ok_iff.1 h
    exact ⟨hopc, hopnd⟩
  case h_3 hopc | h_5 hopc | h_6 hopc | h_7 hopc =>
    cases h
    exact ⟨hopc, rfl⟩
  case h_8 => cases h

/-- What the decoder reads is what the encoder wrote. -/
theorem decode_eq_ok_iff {w : CmdWord} {i : Instr} : decode w = .ok i ↔ encode i = w :=
  ⟨encode_of_decode_ok, fun h => h ▸ decode_encode i⟩

/-- Settles O1: the two directions of `decode_eq_ok_iff`. -/
theorem encodeAndDecodeAgree : Obligations.EncodeAndDecodeAgree :=
  ⟨decode_encode, fun _ _ => encode_of_decode_ok⟩

/-- A command's row selects its word (R47). -/
theorem encode_and_mask (i : Instr) : encode i &&& i.row.mask = i.row.fixedBits := by
  have hrow : i.row.selects (encode i) = true := by
    cases i with
    | nop => exact Laws.EncodingRow.nop.1
    | reset => exact Laws.EncodingRow.reset.1
    | absorb d => exact (Laws.EncodingRow.absorb d).1
    | finalize => exact Laws.EncodingRow.finalize.1
    | rddig n => exact (Laws.EncodingRow.rddig n).1
    | rdhex n => exact (Laws.EncodingRow.rdhex n).1
    | rdstat sel => exact (Laws.EncodingRow.rdstat sel).1
  exact beq_iff_eq.1 hrow

/-- A row whose operand is part of the match selects the word of its one command. -/
theorem encode_eq_of_and_fullMask {w : CmdWord} {i : Instr} (hopnd : i.opnd = 0#8)
    (h : w &&& 0xFFFF#16 = i.row.fixedBits) : encode i = w := by
  rw [and_fullMask] at h
  subst h
  exact encode_eq_iff.2 ⟨opcField_row i, (opndField_row i).trans hopnd.symm⟩

/-- A row whose operand is free selects the word of its command with that word's operand. -/
theorem encode_eq_of_and_opcMask {w : CmdWord} {i : Instr} (hopnd : i.opnd = opndField w)
    (h : w &&& 0xFF00#16 = i.row.fixedBits) : encode i = w :=
  encode_eq_iff.2 ⟨by rw [(and_opcMask_eq_iff (opndField_row i)).1 h, opcField_row], hopnd.symm⟩

/-- A word that a row of the table selects encodes a command of that row. -/
theorem exists_encode_of_and_mask {w : CmdWord} {r : OpcodeRow} (hr : r ∈ opcodeTable)
    (h : w &&& r.mask = r.fixedBits) : ∃ i, encode i = w ∧ i.row = r := by
  simp only [opcodeTable, List.mem_cons, List.not_mem_nil, or_false] at hr
  rcases hr with rfl | rfl | rfl | rfl | rfl | rfl | rfl
  · exact ⟨.nop, encode_eq_of_and_fullMask rfl h, rfl⟩
  · exact ⟨.reset, encode_eq_of_and_fullMask rfl h, rfl⟩
  · exact ⟨.absorb (opndField w), encode_eq_of_and_opcMask rfl h, rfl⟩
  · exact ⟨.finalize, encode_eq_of_and_fullMask rfl h, rfl⟩
  · exact ⟨.rddig (opndField w), encode_eq_of_and_opcMask rfl h, rfl⟩
  · exact ⟨.rdhex (opndField w), encode_eq_of_and_opcMask rfl h, rfl⟩
  · exact ⟨.rdstat (opndField w), encode_eq_of_and_opcMask rfl h, rfl⟩

/-- The row that selects a word is that of the command the decoder reads (R47). -/
theorem and_mask_eq_iff {w : CmdWord} {r : OpcodeRow} (hr : r ∈ opcodeTable) :
    w &&& r.mask = r.fixedBits ↔ ∃ i, decode w = .ok i ∧ i.row = r := by
  simp only [decode_eq_ok_iff]
  constructor
  · exact exists_encode_of_and_mask hr
  · rintro ⟨i, rfl, rfl⟩; exact encode_and_mask i

/-- Two rows that select the same word are the same row: both are that of the command it decodes to. -/
theorem row_eq_of_and_mask {w : CmdWord} {r r' : OpcodeRow} (hr : r ∈ opcodeTable) (hr' : r' ∈ opcodeTable)
    (h : w &&& r.mask = r.fixedBits) (h' : w &&& r'.mask = r'.fixedBits) : r = r' := by
  obtain ⟨i, hi, rfl⟩ := (and_mask_eq_iff hr).1 h
  obtain ⟨j, hj, rfl⟩ := (and_mask_eq_iff hr').1 h'
  rw [hi] at hj
  cases hj
  rfl

/-- The rows of the table that select a word. -/
def selectingRows (w : CmdWord) : List OpcodeRow := opcodeTable.filter fun r => w &&& r.mask == r.fixedBits

theorem mem_selectingRows {w : CmdWord} {r : OpcodeRow} :
    r ∈ selectingRows w ↔ r ∈ opcodeTable ∧ w &&& r.mask = r.fixedBits := by
  simp [selectingRows]

/-- At most one row selects a word: the rows are distinct, and any two that select it are equal. -/
theorem selectingRows_length_le_one (w : CmdWord) : (selectingRows w).length ≤ 1 := by
  have hnodup : (selectingRows w).Nodup := List.Nodup.filter _ (by decide)
  cases hrows : selectingRows w with
  | nil => exact Nat.zero_le 1
  | cons r rs =>
    obtain ⟨hr, hsel⟩ := mem_selectingRows.1 (hrows ▸ List.mem_cons_self : r ∈ selectingRows w)
    have hall : ∀ r' ∈ selectingRows w, r' = r := fun r' hr' =>
      row_eq_of_and_mask (mem_selectingRows.1 hr').1 hr (mem_selectingRows.1 hr').2 hsel
    rw [List.eq_replicate_of_mem hall, List.nodup_replicate] at hnodup
    rwa [← hrows]

/-- Settles O2: the row that selects a word is the decoded command's, so there is at most one. -/
theorem opcodeTableSelectsTheDecodedCommand : Obligations.OpcodeTableSelectsTheDecodedCommand :=
  ⟨rfl, selectingRows_length_le_one, fun _ _ hr => and_mask_eq_iff hr⟩

/-- The two cases of R49, from the arms of the decoder. -/
theorem exists_decode_eq_error_iff (w : CmdWord) : (∃ e, decode w = .error e) ↔
    7 ≤ (opcField w).toNat ∨
      ((opcField w = 0x00#8 ∨ opcField w = 0x01#8 ∨ opcField w = 0x03#8) ∧ opndField w ≠ 0x00#8) := by
  unfold decode
  split
  case h_1 hopc | h_2 hopc | h_4 hopc =>
    rw [exists_noOperand_eq_error_iff, opcField_of_toNat hopc]
    simp
  case h_3 hopc | h_5 hopc | h_6 hopc | h_7 hopc =>
    rw [opcField_of_toNat hopc]
    simp
  case h_8 h0 h1 h2 h3 h4 h5 h6 =>
    have hopc : 7 ≤ (opcField w).toNat := by simp only [imp_false] at h0 h1 h2 h3 h4 h5 h6; omega
    simp [hopc]

/-- Settles O3: R49's cases are the decoder's, and the step answers such a word ILLEGAL. -/
theorem illegalWordsAreAnsweredIllegal : Obligations.IllegalWordsAreAnsweredIllegal := fun w =>
  ⟨exists_decode_eq_error_iff w, fun _ _ _ hc hd => Machine.step_of_decode_error hc hd⟩

/-- Settles O4: each word is the encoding of its command. -/
theorem tableWordsDecodeToTheirCommands : Obligations.TableWordsDecodeToTheirCommands :=
  ⟨decode_encode .nop, decode_encode .reset, decode_encode (.absorb 0x61#8), decode_encode .finalize,
    decode_encode (.rddig 31#8), decode_encode (.rdhex 63#8), decode_encode (.rdstat 10#8)⟩

end Sys2Proof
end

section
/-! The assembler's words: a statement with an `imm8` (spec/30_encoding.md R52), and the expansion of a pseudo-instruction
(R53). -/

namespace Sys2Proof.Machine

/-- An operand joined to fixed bits that leave the operand field 0 is added to them. -/
theorem or_setWidth_eq_add {f : CmdWord} {n : Nat} (hf : opndField f = 0#8) (hn : n < 256) :
    f ||| (BitVec.ofNat 8 n).setWidth 16 = f + BitVec.ofNat 16 n := by
  have hwide : (BitVec.ofNat 8 n).setWidth 16 = BitVec.ofNat 16 n := by
    apply BitVec.eq_of_toNat_eq
    simp; omega
  have hdisjoint : f &&& (BitVec.ofNat 8 n).setWidth 16 = 0#16 := by
    rw [word_fields f, hf]
    apply BitVec.eq_of_getLsbD_eq
    intro k hk
    rw [BitVec.getLsbD_and, BitVec.getLsbD_append, BitVec.getLsbD_setWidth]
    split
    next => simp
    next hk8 => simp [BitVec.getLsbD_of_ge _ _ (not_lt.1 hk8)]
  rw [← hwide, BitVec.add_eq_or_of_and_eq_zero _ _ hdisjoint]

/-- A statement that takes an `imm8` and gives one word with fixed bits `f`: in range the word is `f` plus the operand,
out of range it is refused (R52). -/
theorem assembleStmt_imm8 {mk : Nat → Stmt} {f : CmdWord} (hwf : ∀ n, (mk n).wf = imm8Ok n)
    (hwords : ∀ n, stmtWords (mk n) = [f ||| (BitVec.ofNat 8 n).setWidth 16]) (hf : opndField f = 0#8) (n : Nat) :
    assembleStmt (mk n) = if n < 256 then .ok [f + BitVec.ofNat 16 n] else .error .operandOutOfRange := by
  by_cases hn : n < 256
  · rw [assembleStmt, hwords, or_setWidth_eq_add hf hn]
    simp [hwf, imm8Ok, hn]
  · simp [assembleStmt, hwf, imm8Ok, hn]

theorem assembleStmt_absorb (n : Nat) : assembleStmt (.absorb n) =
    if n < 256 then .ok [0x0200#16 + BitVec.ofNat 16 n] else .error .operandOutOfRange :=
  assembleStmt_imm8 (fun _ => rfl) (fun _ => rfl) (by decide) n

theorem assembleStmt_rddig (n : Nat) : assembleStmt (.rddig n) =
    if n < 256 then .ok [0x0400#16 + BitVec.ofNat 16 n] else .error .operandOutOfRange :=
  assembleStmt_imm8 (fun _ => rfl) (fun _ => rfl) (by decide) n

theorem assembleStmt_rdhex (n : Nat) : assembleStmt (.rdhex n) =
    if n < 256 then .ok [0x0500#16 + BitVec.ofNat 16 n] else .error .operandOutOfRange :=
  assembleStmt_imm8 (fun _ => rfl) (fun _ => rfl) (by decide) n

theorem assembleStmt_rdstat (n : Nat) : assembleStmt (.rdstat n) =
    if n < 256 then .ok [0x0600#16 + BitVec.ofNat 16 n] else .error .operandOutOfRange :=
  assembleStmt_imm8 (fun _ => rfl) (fun _ => rfl) (by decide) n

/-- Settles O5: three fixed words, and the two branches of each `imm8` statement. -/
theorem assemblerEncodesEachStatement : Obligations.AssemblerEncodesEachStatement := by
  refine ⟨rfl, rfl, rfl, fun n hn => ?_, fun n hn => ?_⟩
  · simp [assembleStmt_absorb, assembleStmt_rddig, assembleStmt_rdhex, assembleStmt_rdstat, hn]
  · simp [assembleStmt_absorb, assembleStmt_rddig, assembleStmt_rdhex, assembleStmt_rdstat, not_lt.2 hn]

/-- The words of a list of commands decode to those commands, in order. -/
theorem map_decode_map_encode {α : Type} (f : α → Instr) (l : List α) :
    (l.map fun a => encode (f a)).map decode = l.map fun a => .ok (f a) := by
  simp

/-- Settles O6: every pseudo-instruction but WORD is a list of encoded commands, and WORD accepts 16 bits. -/
theorem pseudoInstructionsDecodeToTheirExpansion : Obligations.PseudoInstructionsDecodeToTheirExpansion := by
  refine ⟨fun text => ?_, fun text => ?_, map_decode_map_encode _ _, map_decode_map_encode _ _, ?_, fun n hn => ?_⟩
  · simp [stmtWords, absorbAll]
  · simp [stmtWords, hashCommands, absorbAll]
  · rw [List.range'_eq_map_range, List.map_map]
    exact map_decode_map_encode (fun n => .rdstat (BitVec.ofNat 8 (3 + n))) (List.range 8)
  · exact if_pos (decide_eq_true hn)

end Sys2Proof.Machine
end

section
/-! What a command does to the two ports (spec/30_encoding.md R45, R46). -/

namespace Sys2Proof.Machine

/-- No command touches the command port: the word it was sent as is taken before it runs. -/
theorem CommandEffect.cmds {s t : State} {i : Instr} (he : CommandEffect s i t) : t.cmds = s.cmds := by
  cases he <;> rfl

/-- A command gives one response word; its DATA is 0x00 unless a read is answered OK. -/
theorem CommandEffect.response {s t : State} {i : Instr} (he : CommandEffect s i t) :
    ∃ c d, t.resps = s.resps ++ [respWord c d] ∧ (d ≠ 0x00#8 → c = .ok ∧ IsReadCommand i) := by
  cases he with
  | reads d hi => exact ⟨.ok, d, rfl, fun _ => ⟨rfl, hi⟩⟩
  | nop | reset | rejects | overflows | stores | folds | finalizes => exact ⟨_, 0x00#8, rfl, (absurd rfl ·)⟩

theorem IsReadCommand.exists_operand {i : Instr} (h : IsReadCommand i) :
    ∃ n, i = .rddig n ∨ i = .rdhex n ∨ i = .rdstat n := by
  cases i with
  | rddig n => exact ⟨n, .inl rfl⟩
  | rdhex n => exact ⟨n, .inr (.inl rfl)⟩
  | rdstat sel => exact ⟨sel, .inr (.inr rfl)⟩
  | nop | reset | absorb | finalize => exact h.elim

/-- Settles O9: an illegal word is answered with DATA 0x00, and a command by `CommandEffect.response`. -/
theorem eachCommandWordGetsOneResponse : Obligations.EachCommandWordGetsOneResponse := by
  intro s t w rest hc h
  cases hd : decode w with
  | error e =>
    rw [step_of_decode_error hc hd] at h
    cases h
    exact ⟨rfl, respWord .illegal 0x00#8, rfl, fun hdata => absurd (respDataField_respWord _ _) hdata⟩
  | ok i =>
    rw [step_of_takeCommand_decode_ok (State.takeCommand_of_cmds_cons hc) hd] at h
    obtain ⟨c, d, hresps, hread⟩ := (exec_effect h).response
    refine ⟨(exec_effect h).cmds, respWord c d, hresps, fun hdata => ?_⟩
    obtain ⟨rfl, hi⟩ := hread ((respDataField_respWord c d).symm.trans_ne hdata)
    exact ⟨respCodeField_respWord _ _, by simpa using hi.exists_operand⟩

end Sys2Proof.Machine
end

section
/-! ABSORB and FINALIZE in the mode that accepts them, in the mode DONE and in ERROR (spec/40_block_assembler.md R54, R55,
R57, R61): each outcome as the state before the command with the fields it writes. -/

namespace Sys2Proof.Machine

/-- Settles O17: the byte is written at BUFCNT, which is L mod 64, and a write to BUF leaves every other entry alone. -/
theorem absorbStoresItsByte : Obligations.AbsorbStoresItsByte := by
  intro d s hm hl hr
  rw [← maxMsgBytes_eq] at hl
  exact ⟨s.buf.insert s.bufCnt d, (execAbsorb_open d hm hl).trans (absorbByte_store d hr),
    Memory.lookup_insert_same _ _ _, fun a ha => Memory.lookup_insert_ne _ _ ha⟩

/-- Settles O18: the byte at entry 63 completes the 63 held bytes to the block that is folded. -/
theorem absorbFoldsAFullBlock : Obligations.AbsorbFoldsAFullBlock := by
  intro d s bs hm hl hr hbs
  rw [← maxMsgBytes_eq] at hl
  refine ⟨?_, ?_, (execAbsorb_open d hm hl).trans (absorbByte_full hr hbs)⟩
  · simp [State.memRead_length hbs]
  · exact (len_succ_mod s.len).trans (by rw [hr])

theorem execFinalize_open {s : State} (hm : s.mode = .absorb) : execFinalize s = finalizeTail s := by
  simp [execFinalize, hm]

theorem execFinalize_of_error {s : State} (hm : s.mode = .error) : execFinalize s = .next (s.raiseReject .inError) := by
  simp [execFinalize, hm]

theorem execFinalize_of_done {s : State} (hm : s.mode = .done) : execFinalize s = .next (s.raiseReject .wrongMode) := by
  simp [execFinalize, hm]

theorem execAbsorb_of_done {s : State} (d : Byte) (hm : s.mode = .done) :
    execAbsorb d s = .next (s.raiseReject .wrongMode) := by
  simp [execAbsorb, hm]

/-- Whether FINALIZE folds a second block, read off the length of its tail (R57, R59). -/
theorem State.finalHash_eq_of_read {s : State} {bs : List Byte} (h : s.memRead 0 s.bufCnt = .ok bs) :
    s.finalHash bs = if (bs ++ padBytes s.len).length = 128
      then compress ((bs ++ padBytes s.len).drop 64) (compress ((bs ++ padBytes s.len).take 64) s.hs)
      else compress (bs ++ padBytes s.len) s.hs := by
  have hlen : (bs ++ padBytes s.len).length = if s.bufCnt ≤ 55 then 64 else 128 := tail_length (State.memRead_length h)
  unfold State.finalHash
  by_cases hr : s.bufCnt ≤ 55
  · rw [if_pos hr] at hlen
    rw [if_pos hr, if_neg (by omega)]
  · rw [if_neg hr] at hlen
    rw [if_neg hr, if_pos hlen]

/-- Settles O20: FINALIZE leaves the Hash State `State.finalHash`, and outside mode ABSORB it is rejected. -/
theorem finalizeFoldsThePaddedTail : Obligations.FinalizeFoldsThePaddedTail := by
  refine ⟨rfl, fun s bs hm hbs => ?_, fun s hm => execFinalize_of_error hm, fun s hm => execFinalize_of_done hm⟩
  rw [← State.finalHash_eq_of_read hbs]
  exact (execFinalize_open hm).trans (finalizeTail_of_read hbs)

/-- In DONE every command but RESET gives a response and does nothing else: of the effects of a command, those that write
the state are RESET's and those of mode ABSORB (R61). -/
theorem CommandEffect.eq_pushResp_of_done {s t : State} {i : Instr} (he : CommandEffect s i t) (hm : s.mode = .done)
    (hi : i ≠ .reset) : ∃ r, t = s.pushResp r := by
  cases he with
  | nop | rejects | reads => exact ⟨_, rfl⟩
  | reset => exact absurd rfl hi
  | overflows d ha | stores d ha | folds d bs ha | finalizes bs ha => simp [hm] at ha

/-- Outside mode ABSORB every command completes: only a fold reads BUF (spec/10_state.md R19). -/
theorem exec_completes_of_mode_ne {s : State} (i : Instr) (hm : s.mode ≠ .absorb) : ∃ t, exec i s = .next t := by
  rcases exec_completesOrLacksByte i s with hnext | ⟨ha, -⟩
  · exact hnext
  · exact absurd ha hm

/-- Settles O25: FINALIZE's one effect in mode ABSORB writes DONE; in DONE a command completes, and its effect is the
response. -/
theorem doneStaysUntilReset : Obligations.DoneStaysUntilReset := by
  refine ⟨fun s t hm h => ?_, fun i s hm hi => ⟨?_, ?_⟩⟩
  · obtain ⟨bs, -, rfl⟩ := finalizeTail_next ((execFinalize_open hm).symm.trans h)
    rfl
  · obtain ⟨t, ht⟩ := exec_completes_of_mode_ne i (s := s) (by simp [hm])
    obtain ⟨r, rfl⟩ := (exec_effect ht).eq_pushResp_of_done hm hi
    exact ⟨r, ht⟩
  · rintro (⟨d, rfl⟩ | rfl)
    · exact execAbsorb_of_done d hm
    · exact execFinalize_of_done hm

end Sys2Proof.Machine
end

section
/-! The padding, the tail it makes and the blocks of a padded message (spec/40_block_assembler.md R58, R59, R60, R62). -/

namespace Sys2Proof.Machine

/-- `z` as R58 writes it, an integer remainder. -/
theorem padZeros_cast (l : Len) : (padZeros l : Int) = (55 - (l.toNat : Int)) % 64 :=
  Int.toNat_of_nonneg (Int.emod_nonneg _ (by decide))

/-- The length field starts at byte 56 of a block (R58). -/
theorem padZeros_aligns (l : Len) : (l.toNat + 1 + padZeros l) % 64 = 56 := by
  rw [padZeros_eq]; omega

/-- Fewer zero bytes do not put the length field there (R58). -/
theorem padZeros_le_of_aligns {l : Len} {z : Nat} (h : (l.toNat + 1 + z) % 64 = 56) : padZeros l ≤ z := by
  rw [padZeros_eq]; omega

/-- Settles O21: the number of zero bytes is `padZeros`. -/
theorem paddingIsMinimal : Obligations.PaddingIsMinimal := fun l =>
  ⟨padZeros l, padZeros_cast l, by rw [padZeros_eq]; omega, padZeros_aligns l, fun _ => padZeros_le_of_aligns, rfl⟩

/-- A tail whose first block ends in the zero bytes: its second block is the 56 zero bytes left and the length field
(R59). -/
theorem tail_drop_block {l : Len} {bs : List Byte} (hbs : bs.length ≤ 63) (hz : padZeros l = (63 - bs.length) + 56) :
    (bs ++ padBytes l).drop 64 = List.replicate 56 0x00#8 ++ be64Bytes (BitVec.ofNat 64 (8 * l.toNat)) := by
  have hsplit : bs ++ padBytes l = (bs ++ 0x80#8 :: List.replicate (63 - bs.length) 0x00#8) ++
      (List.replicate 56 0x00#8 ++ be64Bytes (BitVec.ofNat 64 (8 * l.toNat))) := by
    rw [padBytes, hz, List.replicate_add]
    simp only [List.append_assoc, List.cons_append]
  rw [hsplit]
  exact List.drop_left' (by simp; omega)

/-- Settles O23: where the held bytes leave no room for the length field, the zero bytes fill the first block and the first
56 bytes of the second. -/
theorem tailIsOneBlockOrTwo : Obligations.TailIsOneBlockOrTwo := by
  intro l bs hbs
  have hlen := tail_length hbs
  have hz := padZeros_eq l
  refine ⟨fun hr => ?_, fun hr => ?_⟩
  · rw [if_pos (by omega)] at hlen
    exact ⟨by omega, hlen⟩
  · rw [if_neg (by omega)] at hlen
    exact ⟨by omega, hlen, tail_drop_block (by omega) (by omega)⟩

/-- A padded message is whole blocks: those the message fills, then one or two (R62). -/
theorem paddedMessage_length {msg : List Byte} (h : msg.length ≤ Config.maxMsgBytes) :
    (paddedMessage msg).length = 64 * (msg.length / 64 + if msg.length % 64 ≤ 55 then 1 else 2) := by
  have hl : (BitVec.ofNat 64 msg.length).toNat = msg.length :=
    Nat.mod_eq_of_lt (by rw [maxMsgBytes_eq] at h; omega)
  rw [paddedMessage, List.length_append, padBytes_length, padZeros_eq, hl]
  split <;> omega

/-- Settles O48: a padded message is whole blocks, and the slices of whole blocks are 64 bytes each and join to it. -/
theorem messageBlocksAreSlicesOfThePaddedMessage : Obligations.MessageBlocksAreSlicesOfThePaddedMessage := by
  intro msg h
  rw [← maxMsgBytes_eq] at h
  have hlen := paddedMessage_length h
  have hwhole : (paddedMessage msg).length = 64 * ((paddedMessage msg).length / 64) := by omega
  refine ⟨slices_flatten _ _ hwhole, length_of_mem_slices _ _ hwhole, ?_⟩
  rw [messageBlocks, slices_length, hlen]
  omega

theorem padBytes_zero : padBytes 0#64 = [0x80#8] ++ List.replicate 55 0x00#8 ++ List.replicate 8 0x00#8 := by rfl

theorem messageBlocks_nil : messageBlocks [] = [padBytes 0#64] := by rfl

/-- Settles O24: the padding of the empty message is its one block, and the digest is COMPRESS of it on IV. -/
theorem emptyMessageIsOneBlock : Obligations.EmptyMessageIsOneBlock := by
  refine ⟨padBytes_zero, messageBlocks_nil, ?_⟩
  rw [hashOf, messageBlocks_nil, List.foldl_cons, List.foldl_nil]
  decide +kernel

end Sys2Proof.Machine
end

section
/-! The message schedule and the rounds of COMPRESS (spec/41_compression.md R64 to R69). -/

namespace Sys2Proof.Machine

/-- The recurrence for word t reads words before t only. -/
theorem scheduleWord_append {ws : List Word} {t : Nat} (h0 : 16 ≤ t) (ht : t ≤ ws.length) (more : List Word) :
    scheduleWord (ws ++ more) t = scheduleWord ws t := by
  have hread : ∀ j, 0 < j → (ws ++ more).getD (t - j) 0 = ws.getD (t - j) 0 := fun j hj =>
    List.getD_append ws more 0 (t - j) (by omega)
  simp only [scheduleWord, hread 2 (by decide), hread 7 (by decide), hread 15 (by decide), hread 16 (by decide)]

theorem extendSchedule_getD_of_lt (n : Nat) {ws : List Word} {t : Nat} (ht : t < ws.length) :
    (extendSchedule n ws).getD t 0 = ws.getD t 0 := by
  obtain ⟨more, h⟩ := extendSchedule_extends n ws
  rw [h, List.getD_append _ _ _ _ ht]

/-- Each added word is the recurrence on the finished schedule: the words it read have stayed (R65). -/
theorem extendSchedule_getD_of_le {n : Nat} {ws : List Word} {t : Nat} (h16 : 16 ≤ ws.length) (hle : ws.length ≤ t)
    (ht : t < ws.length + n) : (extendSchedule n ws).getD t 0 = scheduleWord (extendSchedule n ws) t := by
  induction n generalizing ws with
  | zero => omega
  | succ n ih =>
    rcases Nat.eq_or_lt_of_le hle with rfl | hlt
    · obtain ⟨more, h⟩ := extendSchedule_extends (n + 1) ws
      rw [h, scheduleWord_append h16 le_rfl, ← h, extendSchedule_succ, extendSchedule_getD_of_lt n (by simp)]
      simp
    · rw [extendSchedule_succ]
      exact ih (by simp; omega) (by simp; omega) (by simp; omega)

/-- Settles O26: the words of the block stay first in the schedule, and each later one is the recurrence on it. -/
theorem scheduleFollowsTheRecurrence : Obligations.ScheduleFollowsTheRecurrence := by
  intro blk hblk
  have hwords : (blockWords blk).length = 16 := blockWords_length 16 blk hblk
  refine ⟨schedule_length hblk, fun t ht => ?_, fun t h16 ht => ?_⟩
  · rw [schedule, extendSchedule_getD_of_lt 48 (by omega), blockWords_getD t blk (by omega), be32_toNat]
  · exact extendSchedule_getD_of_le hwords.ge (by omega) (by omega)

/-- One round with T1 and T2 written out (R67). -/
theorem roundStep_eq (v : WorkVars) (k w : Word) : roundStep v (k, w) =
    let t1 := v.h + bsig1 v.e + ch v.e v.f v.g + k + w
    let t2 := bsig0 v.a + maj v.a v.b v.c
    ⟨t1 + t2, v.a, v.b, v.c, v.d + t1, v.e, v.f, v.g⟩ := rfl

/-- The working variables before round t of COMPRESS on a Hash State: what the first t rounds leave (R68). -/
def varsBefore (ws : List Word) (s : HashState) (t : Nat) : WorkVars :=
  ((kTable.zip ws).take t).foldl roundStep (initVars s)

theorem varsBefore_zero (ws : List Word) (s : HashState) : varsBefore ws s 0 = initVars s := rfl

/-- Round t reads what the rounds before it left, its own round constant and its own schedule word (R67, R68). -/
theorem varsBefore_succ {ws : List Word} {t : Nat} (hws : ws.length = 64) (ht : t < 64) (s : HashState) :
    varsBefore ws s (t + 1) = roundStep (varsBefore ws s t) (kTable.getD t 0, ws.getD t 0) := by
  have hk : t < kTable.length := kTable_length.symm ▸ ht
  have hw : t < ws.length := hws.symm ▸ ht
  have hzip : t < (kTable.zip ws).length := by rw [List.length_zip]; omega
  rw [varsBefore, List.take_succ_eq_append_getElem hzip, List.foldl_append, List.getElem_zip,
    List.getD_eq_getElem _ _ hk, List.getD_eq_getElem _ _ hw]
  rfl

/-- All the rounds are rounds 0 to 63. -/
theorem rounds_eq_varsBefore {ws : List Word} (hws : ws.length = 64) (s : HashState) :
    rounds ws (initVars s) = varsBefore ws s 64 := by
  rw [rounds, varsBefore, List.take_of_length_le (by rw [List.length_zip, kTable_length, hws]; rfl)]

/-- Settles O27: the working variables are those the first t rounds leave, for t = 0..64. -/
theorem compressRunsSixtyFourRounds : Obligations.CompressRunsSixtyFourRounds := by
  intro blk s hblk
  have hws := schedule_length hblk
  refine ⟨varsBefore (schedule blk) s, varsBefore_zero _ s, fun t ht => ?_, ?_⟩
  · rw [varsBefore_succ hws ht, roundStep_eq]
  · rw [compress, rounds_eq_varsBefore hws, outputFold]

end Sys2Proof.Machine
end

section
/-! NOP and RESET: their words, and what they write (spec/42_accumulator.md R71, R78). -/

namespace Sys2Proof

theorem opcField_toNat (w : CmdWord) : (opcField w).toNat = w.toNat / 256 := by
  have hw := w.isLt
  simp only [opcField, BitVec.extractLsb'_toNat, Nat.shiftRight_eq_div_pow]
  omega

theorem opndField_toNat (w : CmdWord) : (opndField w).toNat = w.toNat % 256 := by
  simp [opndField, BitVec.extractLsb'_toNat]

/-- A command's word is its opcode and its operand (spec/30_encoding.md R45, R47). -/
theorem encode_eq_append (i : Instr) : encode i = BitVec.ofNat 8 i.opcode ++ i.opnd := by
  obtain ⟨hopc, hopnd⟩ := (encode_eq_iff (i := i)).1 rfl
  rw [word_fields (encode i), opcField_of_toNat hopc, hopnd]

/-- The words `0x0001` to `0x00FF` have NOP's opcode and a nonzero operand (R49). -/
theorem decode_error_of_nop_operand {w : CmdWord} (hlo : 0x0001 ≤ w.toNat) (hhi : w.toNat ≤ 0x00FF) :
    ∃ e, decode w = .error e := by
  have hopc : opcField w = 0x00#8 := opcField_of_toNat (by rw [opcField_toNat]; omega)
  have hopnd : opndField w ≠ 0x00#8 := by
    intro h
    have hzero : w.toNat % 256 = 0 := by rw [← opndField_toNat, h]; rfl
    omega
  exact (exists_decode_eq_error_iff w).2 (.inr ⟨.inl hopc, hopnd⟩)

/-- Under RESET's opcode the decoder asks for the operand 0x00 (R48). -/
theorem decode_of_reset_opcode {w : CmdWord} (h : opcField w = 0x01#8) : decode w = noOperand (opndField w) .reset := by
  rw [decode, h]
  rfl

/-- A word with RESET's opcode is RESET's word or has a nonzero operand (R49). -/
theorem decode_error_of_reset_operand {w : CmdWord} (hopc : opcField w = 0x01#8) (hw : w ≠ 0x0100#16) :
    decode w = .error .nonzeroOperand := by
  have hopnd : opndField w ≠ 0 := fun h => hw (word_ext hopc h)
  rw [decode_of_reset_opcode hopc]
  exact if_neg hopnd

namespace Machine

/-- Settles O14: a nonzero operand makes NOP's opcode illegal, and NOP pushes its response. -/
theorem nopOnlyResponds : Obligations.NopOnlyResponds :=
  ⟨encode_eq_append .nop, fun _ hlo hhi => decode_error_of_nop_operand hlo hhi, exec_nop_eq_pushResp⟩

/-- RESET completes in every state (R71). -/
theorem exec_reset_eq (s : State) : exec .reset s = .next (s.newComputation.respond 0x00#8) := rfl

/-- A new computation opened on what RESET left is that same state: RESET had written each of its fields already. -/
theorem State.newComputation_respond_newComputation (s : State) (d : Byte) :
    (s.newComputation.respond d).newComputation = s.newComputation.respond d := rfl

/-- Settles O15: the words with RESET's opcode, the five fields RESET writes, and that it writes them once. -/
theorem resetStartsANewComputation : Obligations.ResetStartsANewComputation := by
  refine ⟨fun w hopc => ?_, exec_reset_eq, fun s t h => ?_⟩
  · split
    next hw => rw [hw]; exact decode_encode .reset
    next hw => exact decode_error_of_reset_operand hopc hw
  · cases h
    rw [exec_reset_eq, State.newComputation_respond_newComputation]
    rfl

end Machine
end Sys2Proof
end

section
/-! The digest reads and the status view: what each index or selector is answered (spec/42_accumulator.md R74 to R77). -/

namespace Sys2Proof.Machine

section DigestRead

variable {i : Instr} {s : State} {b : Option Byte}
  (h : exec i s = .next (s.pushResp (digestReadWord s.mode b)))
include h

/-- A digest read in DONE gives the byte its index picks. -/
theorem digestRead_of_some {d : Byte} (hm : s.mode = .done) (hb : b = some d) :
    exec i s = .next { s with resps := s.resps ++ [0x00#8 ++ d] } := by
  have hword : digestReadWord s.mode b = 0x00#8 ++ d := by rw [hm, hb]; rfl
  rw [h, hword]; rfl

/-- A digest read in DONE whose index picks nothing is answered BAD_INDEX. -/
theorem digestRead_of_none (hm : s.mode = .done) (hb : b = none) :
    exec i s = .next { s with resps := s.resps ++ [0x0400#16] } := by
  have hword : digestReadWord s.mode b = 0x0400#16 := by rw [hm, hb]; rfl
  rw [h, hword]; rfl

/-- A digest read in ABSORB is answered WRONG_MODE. -/
theorem digestRead_of_absorb (hm : s.mode = .absorb) : exec i s = .next { s with resps := s.resps ++ [0x0300#16] } := by
  have hword : digestReadWord s.mode b = 0x0300#16 := by rw [hm]; rfl
  rw [h, hword]; rfl

/-- A digest read in ERROR is answered IN_ERROR. -/
theorem digestRead_of_error (hm : s.mode = .error) : exec i s = .next { s with resps := s.resps ++ [0x0200#16] } := by
  have hword : digestReadWord s.mode b = 0x0200#16 := by rw [hm]; rfl
  rw [h, hword]; rfl

end DigestRead

/-- Digest byte n is byte n mod 4 of word n div 4 (R73). -/
theorem digestBytes_getElem?_of_lt (hs : HashState) {n : Nat} (hn : n < 32) :
    (digestBytes hs)[n]? = some ((hs.toList.getD (n / 4) 0).extractLsb' (24 - 8 * (n % 4)) 8) := by
  rw [← digestBytes_getElem? hs (show n / 4 < 8 by omega) (show n % 4 < 4 by omega), Nat.div_add_mod]

/-- Settles O34: in DONE the index picks a digest byte or nothing, and in the other modes it is not looked at. -/
theorem rddigReadsADigestByte : Obligations.RddigReadsADigestByte := by
  intro i s
  have hexec := exec_rddig_eq_pushResp i s
  refine ⟨encode_eq_append (.rddig i), fun hm hi => ?_, fun hm hi => ?_, digestRead_of_absorb hexec,
    digestRead_of_error hexec⟩
  · exact digestRead_of_some hexec hm (digestBytes_getElem?_of_lt s.hs (by omega))
  · exact digestRead_of_none hexec hm (List.getElem?_eq_none (by rw [digestBytes_length]; exact hi))

/-- The nibble that hex character k of a digest shows, of the digest byte `d` it belongs to: the high one for k even, the
low one for k odd (R76). -/
def hexNibble (k : Nat) (d : Byte) : BitVec 4 := if k % 2 = 0 then d.extractLsb' 4 4 else d.extractLsb' 0 4

theorem hexNibble_toNat (k : Nat) (d : Byte) :
    (hexNibble k d).toNat = if k % 2 = 0 then d.toNat / 16 else d.toNat % 16 := by
  have hd := d.isLt
  unfold hexNibble
  split
  · simp only [BitVec.extractLsb'_toNat, Nat.shiftRight_eq_div_pow]
    omega
  · simp [BitVec.extractLsb'_toNat]

/-- `HEXCHAR(n)` as a number: the ASCII digits, then the lowercase letters (R74). -/
theorem hexChar_toNat (n : BitVec 4) :
    (hexChar n).toNat = if n.toNat ≤ 9 then 0x30 + n.toNat else 0x61 + (n.toNat - 10) := by
  revert n
  decide

/-- Each byte of a sequence gives two entries: entry k is one of those of byte k div 2. -/
theorem flatMap_pair_getElem? {α β : Type} (f g : α → β) (l : List α) (k : Nat) :
    (l.flatMap fun a => [f a, g a])[k]? = l[k / 2]?.map fun a => if k % 2 = 0 then f a else g a := by
  induction l generalizing k with
  | nil => simp
  | cons a l ih =>
    match k with
    | 0 => simp
    | 1 => simp
    | k + 2 => simpa using ih k

/-- Hex character k is that of its nibble of digest byte k div 2 (R74). -/
theorem hexChars_getElem? (hs : HashState) (k : Nat) :
    (hexChars hs)[k]? = (digestBytes hs)[k / 2]?.map fun d => hexChar (hexNibble k d) := by
  rw [hexChars, flatMap_pair_getElem?]
  congr 1
  funext d
  exact (apply_ite hexChar _ _ _).symm

/-- Settles O35: in DONE the index picks the character of a nibble or nothing. -/
theorem rdhexReadsAHexCharacter : Obligations.RdhexReadsAHexCharacter := by
  intro k s
  have hexec := exec_rdhex_eq_pushResp k s
  refine ⟨encode_eq_append (.rdhex k), fun hm hk => ?_, fun hm hk => ?_, digestRead_of_absorb hexec,
    digestRead_of_error hexec⟩
  · have hlt : k.toNat / 2 < (digestBytes s.hs).length := by rw [digestBytes_length]; omega
    have hd := List.getElem?_eq_getElem hlt
    refine ⟨_, hexChar (hexNibble k.toNat _), _, hd, hexNibble_toNat _ _, hexChar_toNat _, ?_⟩
    exact digestRead_of_some hexec hm (by rw [hexChars_getElem?, hd]; rfl)
  · exact digestRead_of_none hexec hm (List.getElem?_eq_none (by rw [hexChars_length]; exact hk))

/-- Status byte 1 is BUFCNT (spec/10_state.md R23, R25). -/
theorem State.statByte_bufCnt (s : State) : s.statByte 1 = some (BitVec.ofNat 8 s.bufCnt) := by
  refine congrArg some (BitVec.eq_of_toNat_eq ?_)
  simp [State.bufCnt, BitVec.extractLsb'_toNat]

/-- Status bytes 3 to 10 are the bytes of L, most significant first (spec/10_state.md R25). -/
theorem State.statByte_len (s : State) {n : Nat} (hlo : 3 ≤ n) (hhi : n ≤ 10) :
    s.statByte n = some (s.len.extractLsb' (8 * (10 - n)) 8) := by
  interval_cases n <;> rfl

/-- Settles O36: selectors 0 to 10 pick a status byte, in every mode, and the others pick nothing. -/
theorem rdstatReadsTheStatusView : Obligations.RdstatReadsTheStatusView := by
  intro sel s
  have hexec := exec_rdstat_eq_pushResp sel s
  refine ⟨encode_eq_append (.rdstat sel), fun hsel => ?_, fun hsel => ?_⟩
  · obtain ⟨b, hb⟩ := Option.isSome_iff_exists.1 ((s.isSome_statByte sel.toNat).2 hsel)
    rw [hb] at hexec
    refine ⟨b, hexec, fun h => ?_, fun h => ?_, fun h => ?_, fun h => ?_⟩
    · rw [h] at hb
      cases hb
      cases s.mode <;> rfl
    · rw [h, State.statByte_bufCnt] at hb
      cases hb
      have hlt := s.bufCnt_lt
      exact Nat.mod_eq_of_lt (by omega)
    · rw [h] at hb
      cases hb
      rfl
    · rw [s.statByte_len h hsel] at hb
      cases hb
      rw [BitVec.extractLsb'_toNat, Nat.shiftRight_eq_div_pow]
  · have hnone : s.statByte sel.toNat = none := by
      rw [← Option.not_isSome_iff_eq_none, State.isSome_statByte]
      omega
    rw [hexec, hnone]
    rfl

end Sys2Proof.Machine
end

section
/-! A whole computation: RESET, the ABSORBs of a message and FINALIZE leave the hash of the message, whatever was before
(spec/42_accumulator.md R79; spec/40_block_assembler.md R62). -/

namespace Sys2Proof.Machine

/-- The 64-byte blocks a message fills before it is padded. -/
def fullBlocks (msg : List Byte) : List (List Byte) := slices (msg.length / 64) msg

/-- The bytes of a message after its full blocks, the ones BUF holds (spec/10_state.md R19). -/
def partialBlock (msg : List Byte) : List Byte := msg.drop (64 * (msg.length / 64))

/-- Blocks folded in order into a Hash State (spec/20_memory.md R40). -/
def foldBlocks (hs : HashState) (blks : List (List Byte)) : HashState := blks.foldl (fun h blk => compress blk h) hs

theorem foldBlocks_append (hs : HashState) (blks blks' : List (List Byte)) :
    foldBlocks hs (blks ++ blks') = foldBlocks (foldBlocks hs blks) blks' := List.foldl_append

theorem hashOf_eq_foldBlocks (msg : List Byte) : hashOf msg = foldBlocks iv (messageBlocks msg) := rfl

@[simp] theorem partialBlock_length (msg : List Byte) : (partialBlock msg).length = msg.length % 64 := by
  rw [partialBlock, List.length_drop]
  omega

/-- More slices of a byte sequence are the slices of what the first ones leave. -/
theorem slices_add (m n : Nat) (bs : List Byte) : slices (m + n) bs = slices m bs ++ slices n (bs.drop (64 * m)) := by
  induction n with
  | zero => simp
  | succ n ih => rw [← Nat.add_assoc, slices_succ, ih, slices_succ, List.append_assoc, List.drop_drop, Nat.mul_add]

/-- What follows the full blocks of a message followed by more bytes. -/
theorem drop_fullBlocks_append (msg bs : List Byte) :
    (msg ++ bs).drop (64 * (msg.length / 64)) = partialBlock msg ++ bs :=
  List.drop_append_of_le_length (by omega)

/-- A byte that does not complete a block leaves the full blocks as they were. -/
theorem fullBlocks_append_of_ne {msg : List Byte} (d : Byte) (h : msg.length % 64 ≠ 63) :
    fullBlocks (msg ++ [d]) = fullBlocks msg := by
  have hdiv : (msg.length + 1) / 64 = msg.length / 64 := by omega
  rw [fullBlocks, List.length_append, List.length_singleton, hdiv]
  exact slices_append _ _ _ (by omega)

/-- A byte that does not complete a block joins the bytes after the full blocks. -/
theorem partialBlock_append_of_ne {msg : List Byte} (d : Byte) (h : msg.length % 64 ≠ 63) :
    partialBlock (msg ++ [d]) = partialBlock msg ++ [d] := by
  have hdiv : (msg.length + 1) / 64 = msg.length / 64 := by omega
  rw [partialBlock, List.length_append, List.length_singleton, hdiv]
  exact drop_fullBlocks_append msg [d]

/-- A byte that completes a block adds that block to the full ones. -/
theorem fullBlocks_append_of_eq {msg : List Byte} (d : Byte) (h : msg.length % 64 = 63) :
    fullBlocks (msg ++ [d]) = fullBlocks msg ++ [partialBlock msg ++ [d]] := by
  have hdiv : (msg.length + 1) / 64 = msg.length / 64 + 1 := by omega
  rw [fullBlocks, List.length_append, List.length_singleton, hdiv, slices_succ, slices_append _ _ _ (by omega),
    drop_fullBlocks_append, List.take_of_length_le (by simp [h])]
  rfl

/-- The blocks of a message are its full blocks and the slices of its padded tail (R62). -/
theorem messageBlocks_eq {msg : List Byte} (h : msg.length ≤ Config.maxMsgBytes) :
    messageBlocks msg = fullBlocks msg ++ slices (if msg.length % 64 ≤ 55 then 1 else 2)
      (partialBlock msg ++ padBytes (BitVec.ofNat 64 msg.length)) := by
  rw [messageBlocks, paddedMessage_length h, Nat.mul_div_cancel_left _ (by decide), slices_add, paddedMessage,
    slices_append _ _ _ (by omega), drop_fullBlocks_append]
  rfl

/-- FINALIZE folds the slices of the padded tail (spec/40_block_assembler.md R57, R59). -/
theorem State.finalHash_eq_foldBlocks {s : State} {bs : List Byte} (h : bs.length = s.bufCnt) : s.finalHash bs =
    foldBlocks s.hs (slices (if s.bufCnt ≤ 55 then 1 else 2) (bs ++ padBytes s.len)) := by
  have hlen : (bs ++ padBytes s.len).length = if s.bufCnt ≤ 55 then 64 else 128 := tail_length h
  unfold State.finalHash
  generalize bs ++ padBytes s.len = tail at hlen ⊢
  by_cases hr : s.bufCnt ≤ 55
  · rw [if_pos hr] at hlen
    simp [hr, foldBlocks, slices, List.take_of_length_le hlen.le]
  · rw [if_neg hr] at hlen
    have hsecond : (tail.drop 64).take 64 = tail.drop 64 := List.take_of_length_le (by rw [List.length_drop, hlen])
    simp [hr, foldBlocks, slices, hsecond]

/-- `t` is where the engine stands in a computation that began at `s` with RESET and has taken the bytes `msg`. -/
structure MidMessage (s : State) (msg : List Byte) (t : State) : Prop where
  hs : t.hs = foldBlocks iv (fullBlocks msg)
  held : t.memRead 0 t.bufCnt = .ok (partialBlock msg)
  len : t.len = BitVec.ofNat 64 msg.length
  mode : t.mode = .absorb
  errcode : t.errcode = 0x00#8
  cmds : t.cmds = s.cmds
  resps : t.resps = s.resps ++ List.replicate (msg.length + 1) 0x0000#16

/-- RESET begins a message of no bytes (R71). -/
theorem MidMessage.newComputation (s : State) : MidMessage s [] (s.newComputation.respond 0x00#8) where
  hs := rfl
  held := rfl
  len := rfl
  mode := rfl
  errcode := rfl
  cmds := rfl
  resps := rfl

section MidMessage

variable {s t : State} {msg : List Byte} (ht : MidMessage s msg t)
include ht

theorem MidMessage.len_toNat (hl : msg.length ≤ Config.maxMsgBytes) : t.len.toNat = msg.length := by
  rw [maxMsgBytes_eq] at hl
  rw [ht.len, BitVec.toNat_ofNat, Nat.mod_eq_of_lt (by omega)]

theorem MidMessage.bufCnt (hl : msg.length ≤ Config.maxMsgBytes) : t.bufCnt = msg.length % 64 := by
  rw [State.bufCnt, ht.len_toNat hl]

/-- One more byte taken and answered OK: it is left to say what the Hash State and BUF are. -/
theorem MidMessage.snoc {u : State} {d : Byte} (hhs : u.hs = foldBlocks iv (fullBlocks (msg ++ [d])))
    (hheld : u.memRead 0 u.bufCnt = .ok (partialBlock (msg ++ [d]))) (hlen : u.len = t.len + 1)
    (hmode : u.mode = t.mode) (herrcode : u.errcode = t.errcode) (hcmds : u.cmds = t.cmds)
    (hresps : u.resps = t.resps ++ [0x0000#16]) : MidMessage s (msg ++ [d]) u where
  hs := hhs
  held := hheld
  len := by rw [hlen, ht.len, List.length_append, BitVec.ofNat_add]; rfl
  mode := hmode.trans ht.mode
  errcode := herrcode.trans ht.errcode
  cmds := hcmds.trans ht.cmds
  resps := by rw [hresps, ht.resps, List.append_assoc, ← List.replicate_succ', List.length_append]; rfl

/-- A byte that does not fill the block is held after the others (R54). -/
theorem MidMessage.stores (d : Byte) (hl : msg.length ≤ Config.maxMsgBytes) (hr : t.bufCnt ≠ 63) :
    MidMessage s (msg ++ [d]) ((t.storeByte d).respond 0x00#8) := by
  have hmod : msg.length % 64 ≠ 63 := ht.bufCnt hl ▸ hr
  have hlt := t.bufCnt_lt
  refine ht.snoc ?_ ?_ rfl rfl rfl rfl rfl
  · rw [fullBlocks_append_of_ne d hmod]
    exact ht.hs
  · have hcnt : ((t.storeByte d).respond 0x00#8).bufCnt = t.bufCnt + 1 :=
      (t.storeByte_bufCnt d).trans (Nat.mod_eq_of_lt (by omega))
    rw [hcnt, partialBlock_append_of_ne d hmod]
    have hread := State.memRead_insert_next (b := d) ht.held hlt
    rw [← hread]
    exact State.memRead_congr (by rfl) 0 _

/-- A byte that fills the block is folded with the others, and BUF holds none (R55). -/
theorem MidMessage.folds (d : Byte) (hl : msg.length ≤ Config.maxMsgBytes) (hr : t.bufCnt = 63) :
    MidMessage s (msg ++ [d])
      (((t.storeByte d).setHs (compress (partialBlock msg ++ [d]) t.hs)).clearBuf.respond 0x00#8) := by
  have hmod : msg.length % 64 = 63 := ht.bufCnt hl ▸ hr
  refine ht.snoc ?_ ?_ rfl rfl rfl rfl rfl
  · rw [fullBlocks_append_of_eq d hmod, foldBlocks_append, ← ht.hs]
    rfl
  · have hcnt : (t.storeByte d).bufCnt = 0 := by rw [State.storeByte_bufCnt, hr]
    have hnil : partialBlock (msg ++ [d]) = [] := by
      apply List.eq_nil_of_length_eq_zero
      rw [partialBlock_length, List.length_append, List.length_singleton]
      omega
    rw [hnil]
    change State.memRead _ 0 (t.storeByte d).bufCnt = _
    rw [hcnt, State.memRead_zero]

/-- ABSORB of the next byte of a message below the length limit (R54, R55). -/
theorem MidMessage.absorb (d : Byte) (hl : msg.length < Config.maxMsgBytes) :
    ∃ u, exec (.absorb d) t = .next u ∧ MidMessage s (msg ++ [d]) u := by
  have hopen : exec (.absorb d) t = absorbByte d t :=
    execAbsorb_open d ht.mode (by rw [ht.len_toNat hl.le]; exact hl.ne)
  by_cases hr : t.bufCnt = 63
  · exact ⟨_, hopen.trans (absorbByte_full hr (hr ▸ ht.held)), ht.folds d hl.le hr⟩
  · exact ⟨_, hopen.trans (absorbByte_store d hr), ht.stores d hl.le hr⟩

/-- FINALIZE's folds are those of the blocks the full ones leave (R57, R62). -/
theorem MidMessage.finalHash (hl : msg.length ≤ Config.maxMsgBytes) : t.finalHash (partialBlock msg) = hashOf msg := by
  have hlen : (partialBlock msg).length = t.bufCnt := (partialBlock_length msg).trans (ht.bufCnt hl).symm
  rw [State.finalHash_eq_foldBlocks hlen, ht.bufCnt hl, ht.hs, ht.len, ← foldBlocks_append, ← messageBlocks_eq hl,
    hashOf_eq_foldBlocks]

/-- FINALIZE ends the computation with the hash of the message (R57). -/
theorem MidMessage.finalize (hl : msg.length ≤ Config.maxMsgBytes) :
    exec .finalize t = .next { s with
      hs := hashOf msg, buf := [], len := BitVec.ofNat 64 msg.length, mode := .done, errcode := 0x00#8,
      resps := s.resps ++ List.replicate (msg.length + 2) 0x0000#16 } := by
  have hexec : exec .finalize t =
      .next (((t.setHs (t.finalHash (partialBlock msg))).clearBuf.setMode .done).respond 0x00#8) :=
    (execFinalize_open ht.mode).trans (finalizeTail_of_read ht.held)
  rw [hexec, ht.finalHash hl]
  refine congrArg _ (State.ext_fields rfl rfl ht.len rfl ht.errcode ht.cmds ?_)
  change t.resps ++ [0x0000#16] = _
  rw [ht.resps, List.append_assoc, ← List.replicate_succ']

end MidMessage

/-- The ABSORBs of the rest of a message are performed, and the run goes on from where they leave the engine. -/
theorem MidMessage.absorbAll {s t : State} {msg : List Byte} (ht : MidMessage s msg t) (rest : List Byte)
    (is : List Instr) (hl : (msg ++ rest).length ≤ Config.maxMsgBytes) :
    ∃ u, execAll (rest.map .absorb ++ is) t = execAll is u ∧ MidMessage s (msg ++ rest) u := by
  induction rest generalizing msg t with
  | nil => exact ⟨t, rfl, by simpa using ht⟩
  | cons d rest ih =>
    obtain ⟨u, hu, hmid⟩ := ht.absorb d (by simp at hl; omega)
    rw [List.append_cons] at hl ⊢
    obtain ⟨v, hv, hmid'⟩ := ih hmid hl
    exact ⟨v, (execAll_cons_next _ hu).trans hv, hmid'⟩

/-- Settles O49: RESET begins the message, each ABSORB takes a byte, and FINALIZE folds what the full blocks leave. -/
theorem digestIsAFunctionOfTheMessage : Obligations.DigestIsAFunctionOfTheMessage := by
  intro msg s hl
  rw [← maxMsgBytes_eq] at hl
  refine ⟨?_, digestBytes_length _, hexChars_length _⟩
  obtain ⟨t, hrun, hmid⟩ := (MidMessage.newComputation s).absorbAll msg [.finalize] hl
  calc execAll ([.reset] ++ msg.map .absorb ++ [.finalize]) s
      = execAll (msg.map .absorb ++ [.finalize]) (s.newComputation.respond 0x00#8) :=
        execAll_cons_next _ (exec_reset_eq s)
    _ = execAll [.finalize] t := hrun
    _ = _ := execAll_cons_next [] (hmid.finalize hl)

end Sys2Proof.Machine
end

section
/-! The bit-manipulation primitives, bit by bit: sums, rotates and shifts, Ch and Maj, and the sigma functions
(spec/43_primitives.md R80 to R88). -/

namespace Sys2Proof.Machine

/-- Adding words one after the other to `a` wraps only once, at the end (R80). -/
theorem foldl_add32_toNat (xs : List Word) (a : Word) :
    (xs.foldl add32 a).toNat = (a.toNat + (xs.map BitVec.toNat).sum) % 2 ^ 32 := by
  induction xs generalizing a with
  | nil => exact (Nat.mod_eq_of_lt a.isLt).symm
  | cons x xs ih =>
    rw [List.foldl_cons, ih, add32, BitVec.toNat_add, Nat.mod_add_mod, Nat.add_assoc, List.map_cons, List.sum_cons]

/-- Settles O29: the sum from any first word, taken from 0. -/
theorem sumsWrapModuloTwoToTheThirtyTwo : Obligations.SumsWrapModuloTwoToTheThirtyTwo := by
  intro xs
  rw [foldl_add32_toNat, BitVec.toNat_zero, Nat.zero_add]

/-- The two shifts of R81 are the library's rotate. -/
theorem rotr_eq_rotateRight (x : Word) {n : Nat} (hn : n ≤ 31) : rotr x n = x.rotateRight n := by
  rw [rotr, BitVec.rotateRight_def, Nat.mod_eq_of_lt (by omega)]

/-- Bit `i` of ROTR is bit `(i + n) mod 32` (R81): below `32 - n` it comes from the right shift, above from the left. -/
theorem getLsbD_rotr (x : Word) {n i : Nat} (hn : n ≤ 31) (hi : i < 32) :
    (rotr x n).getLsbD i = x.getLsbD ((i + n) % 32) := by
  have hmod : n % 32 = n := Nat.mod_eq_of_lt (by omega)
  rw [rotr_eq_rotateRight x hn, BitVec.getLsbD_rotateRight, hmod]
  by_cases hlow : i < 32 - n
  · have hbit : (i + n) % 32 = n + i := by omega
    simp [hlow, hbit]
  · have hbit : (i + n) % 32 = i - (32 - n) := by omega
    simp [hlow, hi, hbit]

theorem getLsbD_shr (x : Word) (n i : Nat) : (shr x n).getLsbD i = x.getLsbD (i + n) := by
  rw [shr, BitVec.getLsbD_ushiftRight, Nat.add_comm]

/-- Settles O30: the rotate's bit, and the shift's, where a word has no bit from 32 up. -/
theorem rotateWrapsAndShiftFillsWithZeros : Obligations.RotateWrapsAndShiftFillsWithZeros := by
  intro x n i hn hi
  refine ⟨getLsbD_rotr x hn hi, ?_⟩
  rw [getLsbD_shr]
  split
  next => rfl
  next hout => exact BitVec.getLsbD_of_ge x _ (not_lt.1 hout)

theorem getLsbD_ch (x y z : Word) (i : Nat) :
    (ch x y z).getLsbD i = ((x.getLsbD i && y.getLsbD i) ^^ ((decide (i < 32) && !x.getLsbD i) && z.getLsbD i)) := by
  rw [ch, BitVec.getLsbD_xor, BitVec.getLsbD_and, BitVec.getLsbD_and, BitVec.getLsbD_not]

theorem getLsbD_maj (x y z : Word) (i : Nat) : (maj x y z).getLsbD i =
    (((x.getLsbD i && y.getLsbD i) ^^ (x.getLsbD i && z.getLsbD i)) ^^ (y.getLsbD i && z.getLsbD i)) := by
  rw [maj, BitVec.getLsbD_xor, BitVec.getLsbD_xor, BitVec.getLsbD_and, BitVec.getLsbD_and, BitVec.getLsbD_and]

/-- R84's xor of the three pairs is 1 exactly where two or three of the bits are. -/
theorem xor_pairs_eq_two_le_count : ∀ a b c : Bool,
    (((a && b) ^^ (a && c)) ^^ (b && c)) = decide (2 ≤ ([a, b, c].filter id).length) := by
  decide

/-- Settles O31: Ch by x's bit, Maj by the truth table of three bits. -/
theorem choiceAndMajorityBitByBit : Obligations.ChoiceAndMajorityBitByBit := by
  intro x y z i
  constructor
  · rw [getLsbD_ch]
    cases x.getLsbD i <;> simp
  · rw [getLsbD_maj, xor_pairs_eq_two_le_count]

section Sigma

variable (x : Word) {i : Nat} (hi : i < 32)
include hi

theorem getLsbD_bsig0 : (bsig0 x).getLsbD i =
    ((x.getLsbD ((i + 2) % 32) ^^ x.getLsbD ((i + 13) % 32)) ^^ x.getLsbD ((i + 22) % 32)) := by
  simp only [bsig0, BitVec.getLsbD_xor, getLsbD_rotr, hi, Nat.reduceLeDiff]

theorem getLsbD_bsig1 : (bsig1 x).getLsbD i =
    ((x.getLsbD ((i + 6) % 32) ^^ x.getLsbD ((i + 11) % 32)) ^^ x.getLsbD ((i + 25) % 32)) := by
  simp only [bsig1, BitVec.getLsbD_xor, getLsbD_rotr, hi, Nat.reduceLeDiff]

theorem getLsbD_ssig0 : (ssig0 x).getLsbD i =
    ((x.getLsbD ((i + 7) % 32) ^^ x.getLsbD ((i + 18) % 32)) ^^ x.getLsbD (i + 3)) := by
  simp only [ssig0, BitVec.getLsbD_xor, getLsbD_rotr, getLsbD_shr, hi, Nat.reduceLeDiff]

theorem getLsbD_ssig1 : (ssig1 x).getLsbD i =
    ((x.getLsbD ((i + 17) % 32) ^^ x.getLsbD ((i + 19) % 32)) ^^ x.getLsbD (i + 10)) := by
  simp only [ssig1, BitVec.getLsbD_xor, getLsbD_rotr, getLsbD_shr, hi, Nat.reduceLeDiff]

end Sigma

/-- Settles O32: each sigma function is an xor of rotates and shifts, whose bits are known. -/
theorem sigmaFunctionsBitByBit : Obligations.SigmaFunctionsBitByBit :=
  fun x _ hi => ⟨getLsbD_bsig0 x hi, getLsbD_bsig1 x hi, getLsbD_ssig0 x hi, getLsbD_ssig1 x hi⟩

end Sys2Proof.Machine
end

section
/-! The response codes (spec/60_exceptions.md R89, R95): what a command that completes leaves, sorted by the code of the
first check that applies: performed, rejected (R90), or the fatal LENGTH_OVERFLOW (R91, R92). -/

namespace Sys2Proof.Machine

/-- R89 gives no number to two codes. -/
theorem RespCode.code_injective : Function.Injective RespCode.code := by
  intro a b
  cases a <;> cases b <;> decide

/-- The rejections a decoded command can meet (R90). -/
def RespCode.IsReject (c : RespCode) : Prop := c ∈ [RespCode.inError, .wrongMode, .badIndex]

/-- A rejection is neither OK nor a fatal error. -/
theorem RespCode.IsReject.code_ne {c : RespCode} (h : c.IsReject) :
    c.code ≠ 0x00#8 ∧ c.code ≠ 0x05#8 ∧ c.code ≠ 0x06#8 := by
  simp only [RespCode.IsReject, List.mem_cons, List.not_mem_nil, or_false] at h
  rcases h with rfl | rfl | rfl <;> decide

/-- `AnsweredBy s i t c`: command `i`, answered with the code `c`, may take the engine from `s` to `t`. -/
inductive AnsweredBy (s : State) (i : Instr) (t : State) : RespCode → Prop
  | performed (d : Byte) (hresps : t.resps = s.resps ++ [respWord .ok d]) : AnsweredBy s i t .ok
  | rejected {c : RespCode} (hc : c.IsReject) (ht : t = s.raiseReject c) : AnsweredBy s i t c
  | overflowed (d : Byte) (hi : i = .absorb d) (hm : s.mode = .absorb) (hl : s.len.toNat = Config.maxMsgBytes)
      (ht : t = s.raiseFatal .lengthOverflow) : AnsweredBy s i t .lengthOverflow

/-- Every effect of a command is the one its code says. -/
theorem CommandEffect.answeredBy {s t : State} {i : Instr} (he : CommandEffect s i t) :
    AnsweredBy s i t (codeByPriority i s) := by
  cases he with
  | nop | reset => exact .performed _ rfl
  | rejects hcode hc => rw [hcode]; exact .rejected hc rfl
  | reads d hi hcode => rw [hcode]; exact .performed d rfl
  | overflows d hm hl =>
    have hcode : codeByPriority (.absorb d) s = .lengthOverflow := by simp [codeByPriority, hm, hl]
    rw [hcode]
    exact .overflowed d rfl hm hl rfl
  | stores d hm hl => rw [codeByPriority_absorb_open d hm hl]; exact .performed _ rfl
  | folds d bs hm hl => rw [codeByPriority_absorb_open d hm hl]; exact .performed _ rfl
  | finalizes bs hm =>
    have hcode : codeByPriority .finalize s = .ok := by simp [codeByPriority, hm]
    rw [hcode]
    exact .performed _ rfl

theorem exec_answeredBy {i : Instr} {s t : State} (h : exec i s = .next t) : AnsweredBy s i t (codeByPriority i s) :=
  (exec_effect h).answeredBy

/-- The one response given carries the code. -/
theorem AnsweredBy.response {s t : State} {i : Instr} {c : RespCode} (h : AnsweredBy s i t c) :
    ∃ d, t.resps = s.resps ++ [respWord c d] := by
  cases h with
  | performed d hresps => exact ⟨d, hresps⟩
  | rejected hc ht => exact ⟨0x00#8, ht ▸ rfl⟩
  | overflowed d hi hm hl ht => exact ⟨0x00#8, ht ▸ rfl⟩

/-- The response of a command that completes carries the code of the first check that applies (R95). -/
theorem exec_response_code {i : Instr} {s t : State} (h : exec i s = .next t) :
    ∃ r, t.resps = s.resps ++ [r] ∧ respCodeField r = (codeByPriority i s).code := by
  obtain ⟨d, hresps⟩ := (exec_answeredBy h).response
  exact ⟨_, hresps, respCodeField_respWord _ d⟩

/-- The code of the response a command gave determines the check that gave it. -/
theorem codeByPriority_of_response {i : Instr} {s t : State} {r : RespWord} (h : exec i s = .next t)
    (hresps : t.resps = s.resps ++ [r]) {c : RespCode} (hr : respCodeField r = c.code) : codeByPriority i s = c := by
  obtain ⟨r', hresps', hr'⟩ := exec_response_code h
  obtain rfl : r' = r := by simpa [hresps] using hresps'.symm
  exact RespCode.code_injective (hr'.symm.trans hr)

/-- R95's checks do not look at the command port. -/
theorem codeByPriority_setCmds (i : Instr) (s : State) (c : List CmdWord) :
    codeByPriority i (s.setCmds c) = codeByPriority i s := rfl

/-- Settles O11: the response of a command by `exec_response_code`, that of an illegal word by the step's one case for
it. -/
theorem firstCheckDecidesTheCode : Obligations.FirstCheckDecidesTheCode := by
  refine ⟨fun i s t h => exec_response_code h, fun s t w rest hc h => ?_⟩
  cases hd : decode w with
  | error e =>
    rw [step_of_decode_error hc hd] at h
    cases h
    exact ⟨_, rfl, respCodeField_respWord _ _⟩
  | ok i =>
    rw [step_of_takeCommand_decode_ok (State.takeCommand_of_cmds_cons hc) hd] at h
    obtain ⟨r, hresps, hr⟩ := exec_response_code h
    exact ⟨r, hresps, hr.trans (congrArg _ (codeByPriority_setCmds i s rest))⟩

/-- A command with a rejection's code only adds its response (R90). -/
theorem AnsweredBy.eq_raiseReject {s t : State} {i : Instr} {c : RespCode} (h : AnsweredBy s i t c) (hc : c.IsReject) :
    t = s.raiseReject c := by
  cases h with
  | rejected _ ht => exact ht
  | performed => exact absurd rfl hc.code_ne.1
  | overflowed => exact absurd rfl hc.code_ne.2.1

/-- Settles O12: a rejection's code is given by the operation that only adds a response, and ILLEGAL by the step. -/
theorem rejectionChangesNoState : Obligations.RejectionChangesNoState :=
  ⟨fun _ _ _ h hcode => (exec_answeredBy h).eq_raiseReject hcode, fun _ _ _ _ hc hd => step_of_decode_error hc hd⟩

/-- ABSORB at the length limit is fatal (R92). -/
theorem execAbsorb_of_limit {s : State} (d : Byte) (hm : s.mode = .absorb) (hl : s.len.toNat = Config.maxMsgBytes) :
    execAbsorb d s = .next (s.raiseFatal .lengthOverflow) := by
  simp [execAbsorb, hm, hl]

/-- Settles O19: the code 0x05 belongs to LENGTH_OVERFLOW alone, and only ABSORB at the limit overflows. -/
theorem absorbAtTheLimitIsLengthOverflow : Obligations.AbsorbAtTheLimitIsLengthOverflow := by
  unfold Obligations.AbsorbAtTheLimitIsLengthOverflow
  rw [← maxMsgBytes_eq]
  refine ⟨fun d s hm hl => execAbsorb_of_limit d hm hl, fun i s t r h hresps hr => ?_⟩
  have hcode : codeByPriority i s = .lengthOverflow := codeByPriority_of_response h hresps hr
  have hans := exec_answeredBy h
  rw [hcode] at hans
  cases hans with
  | overflowed d hi hm hl => exact ⟨⟨d, hi⟩, hm, hl⟩
  | rejected hc => exact absurd rfl hc.code_ne.2.1

/-- No command meets the check of a fold that has no value: every block folded is 64 bytes (R93). -/
theorem codeByPriority_ne_internal {i : Instr} {s t : State} (h : exec i s = .next t) :
    codeByPriority i s ≠ .internal := by
  intro hcode
  have hans := exec_answeredBy h
  rw [hcode] at hans
  cases hans with
  | rejected hc => exact hc.code_ne.2.2 rfl

/-- Settles O40: a response with code 0x06 would be INTERNAL's, which no effect of a command gives. -/
theorem internalErrorIsUnreachable : Obligations.InternalErrorIsUnreachable :=
  ⟨fun _ _ _ _ h hresps hr => codeByPriority_ne_internal h (codeByPriority_of_response h hresps hr),
    fun _ _ hlen => if_neg hlen⟩

/-- A command with a fatal code enters ERROR by LENGTH_OVERFLOW (R91, R92, R93). -/
theorem eq_raiseFatal_of_fatal_code {i : Instr} {s t : State} (h : exec i s = .next t)
    (hcode : codeByPriority i s ∈ [RespCode.lengthOverflow, .internal]) :
    codeByPriority i s = .lengthOverflow ∧ t = s.raiseFatal .lengthOverflow := by
  have hover : codeByPriority i s = .lengthOverflow := by
    simpa [codeByPriority_ne_internal h] using hcode
  have hans := exec_answeredBy h
  rw [hover] at hans
  cases hans with
  | overflowed d hi hm hl ht => exact ⟨hover, ht⟩
  | rejected hc => exact absurd rfl hc.code_ne.2.1

/-- Settles O39: the state entered is `State.raiseFatal`, in which the digest reads meet the mode ERROR and L is as it
was. -/
theorem fatalErrorEntersErrorMode : Obligations.FatalErrorEntersErrorMode := by
  intro i s t h hcode
  obtain ⟨hover, rfl⟩ := eq_raiseFatal_of_fatal_code h hcode
  refine ⟨by rw [hover]; rfl, fun n => digestRead_of_error (exec_rddig_eq_pushResp n _) rfl,
    fun n => digestRead_of_error (exec_rdhex_eq_pushResp n _) rfl, fun sel hlo hhi => ?_⟩
  obtain ⟨-, hstat, -⟩ := rdstatReadsTheStatusView sel (s.raiseFatal .lengthOverflow)
  obtain ⟨b, hexec, -, -, -, hlen⟩ := hstat hhi
  exact ⟨b, hlen hlo, hexec⟩

end Sys2Proof.Machine
end

section
/-! The mode ERROR: which commands are performed in it, and that only RESET leaves it (spec/60_exceptions.md R98, R99). -/

namespace Sys2Proof.Machine

/-- RDSTAT is the only read that ERROR does not reject (R98). -/
theorem IsReadCommand.eq_rdstat_of_error {i : Instr} {s : State} (hi : IsReadCommand i) (hm : s.mode = .error)
    (hcode : codeByPriority i s = .ok) : ∃ sel, i = .rdstat sel := by
  cases i with
  | rdstat sel => exact ⟨sel, rfl⟩
  | rddig | rdhex => simp [codeByPriority, hm] at hcode
  | nop | reset | absorb | finalize => exact hi.elim

/-- In ERROR a command other than RESET is performed only if it is NOP or RDSTAT, and otherwise rejected; either way it
only adds its response (R99). -/
theorem CommandEffect.cases_of_error {s t : State} {i : Instr} (he : CommandEffect s i t) (hm : s.mode = .error)
    (hi : i ≠ .reset) :
    (∃ d, t = s.respond d ∧ (i = .nop ∨ ∃ sel, i = .rdstat sel)) ∨ ∃ c, c.IsReject ∧ t = s.raiseReject c := by
  cases he with
  | nop => exact .inl ⟨_, rfl, .inl rfl⟩
  | reads d hread hcode => exact .inl ⟨d, rfl, .inr (hread.eq_rdstat_of_error hm hcode)⟩
  | rejects hcode hc => exact .inr ⟨_, hc, rfl⟩
  | reset => exact absurd rfl hi
  | overflows d ha | stores d ha | folds d bs ha | finalizes bs ha => simp [hm] at ha

/-- Settles O41: outside mode ABSORB a command completes; a performed one answers OK, a rejected one neither OK nor a
fatal code. -/
theorem onlyResetLeavesError : Obligations.OnlyResetLeavesError := by
  refine fun i s hm => ⟨fun hi => ?_, ?_⟩
  · obtain ⟨t, ht⟩ := exec_completes_of_mode_ne i (s := s) (by simp [hm])
    rcases (exec_effect ht).cases_of_error hm hi with ⟨d, rfl, hperformed⟩ | ⟨c, hc, rfl⟩
    · have hok : respCodeField (respWord .ok d) = 0x00#8 := respCodeField_respWord .ok d
      exact ⟨respWord .ok d, ht, hok.trans_ne (by decide), hok.trans_ne (by decide), fun _ => hperformed⟩
    · have hcode : respCodeField (respWord c 0x00#8) = c.code := respCodeField_respWord c 0x00#8
      obtain ⟨hok, hover, hinternal⟩ := hc.code_ne
      exact ⟨respWord c 0x00#8, ht, hcode.trans_ne hover, hcode.trans_ne hinternal,
        fun h => absurd (hcode.symm.trans h) hok⟩
  · rintro rfl
    exact ⟨_, exec_reset_eq s, rfl, rfl, rfl, rfl⟩

end Sys2Proof.Machine
end

section
/-! Outside DONE the Hash State stays inside the engine: no digest read is answered OK, and no command lets anything but
the Hash State depend on it (spec/60_exceptions.md R100). -/

namespace Sys2Proof.Machine

/-- A digest read passes its checks in DONE only (R95). -/
theorem mode_eq_done_of_digestRead_ok {i : Instr} {s : State} (hi : (∃ n, i = .rddig n) ∨ ∃ n, i = .rdhex n)
    (hcode : codeByPriority i s = .ok) : s.mode = .done := by
  cases hm : s.mode with
  | done => rfl
  | absorb | error => rcases hi with ⟨n, rfl⟩ | ⟨n, rfl⟩ <;> simp [codeByPriority, hm] at hcode

/-- The answer of a digest read outside DONE does not depend on what its index picks. -/
theorem digestReadWord_of_ne_done {m : Mode} (hm : m ≠ .done) (b b' : Option Byte) :
    digestReadWord m b = digestReadWord m b' := by
  cases m with
  | absorb | error => rfl
  | done => exact absurd rfl hm

/-- The status view does not show the Hash State (spec/10_state.md R25). -/
theorem State.setHs_statByte (s : State) (h : HashState) (n : Nat) : (s.setHs h).statByte n = s.statByte n := rfl

theorem execAbsorb_of_error {s : State} (d : Byte) (hm : s.mode = .error) :
    execAbsorb d s = .next (s.raiseReject .inError) := by
  simp [execAbsorb, hm]

/-- A fold replaces the Hash State, so the one held before it is nowhere else in the state it leaves. -/
theorem State.setHs_clearBuf_respond (s : State) (h h' h₀ : HashState) :
    (((s.setHs h).setHs h').clearBuf.respond 0x00#8) = ((s.setHs h₀).clearBuf.respond 0x00#8).setHs h' := rfl

/-- The Hash State an ABSORB starts from goes nowhere but into the one it leaves. -/
theorem execAbsorb_setHs {d : Byte} {s t : State} (h : HashState) (ht : execAbsorb d s = .next t) :
    ∃ h', execAbsorb d (s.setHs h) = .next (t.setHs h') := by
  rcases execAbsorb_next ht with ⟨hm, rfl⟩ | ⟨hm, rfl⟩ | ⟨hm, hl, rfl⟩ | ⟨hm, hl, ht⟩
  · exact ⟨h, execAbsorb_of_error d hm⟩
  · exact ⟨h, execAbsorb_of_done d hm⟩
  · exact ⟨h, execAbsorb_of_limit d hm hl⟩
  · have hopen : execAbsorb d (s.setHs h) = absorbByte d (s.setHs h) := execAbsorb_open d hm hl
    rw [hopen]
    rcases absorbByte_next ht with ⟨hr, rfl⟩ | ⟨hr, bs, hbs, rfl⟩
    · exact ⟨h, absorbByte_store d hr⟩
    · have hfull := absorbByte_full (d := d) (s := s.setHs h) hr ((s.setHs_memRead h 0 63).trans hbs)
      exact ⟨_, hfull.trans (congrArg _ (State.setHs_clearBuf_respond (s.storeByte d) h _ _))⟩

/-- The Hash State a FINALIZE starts from goes nowhere but into the one it leaves. -/
theorem execFinalize_setHs {s t : State} (h : HashState) (ht : execFinalize s = .next t) :
    ∃ h', execFinalize (s.setHs h) = .next (t.setHs h') := by
  rcases execFinalize_next ht with ⟨hm, rfl⟩ | ⟨hm, rfl⟩ | ⟨hm, ht⟩
  · exact ⟨h, execFinalize_of_error hm⟩
  · exact ⟨h, execFinalize_of_done hm⟩
  · obtain ⟨bs, hbs, rfl⟩ := finalizeTail_next ht
    have hopen : execFinalize (s.setHs h) = finalizeTail (s.setHs h) := execFinalize_open hm
    have hread := finalizeTail_of_read (s := s.setHs h) ((s.setHs_memRead h 0 _).trans hbs)
    exact ⟨_, (hopen.trans hread).trans (congrArg _ (State.setHs_clearBuf_respond (s.setMode .done) h _ _))⟩

/-- Outside DONE a command leaves the same state whatever the Hash State was, the Hash State itself apart (R100). -/
theorem exec_setHs {i : Instr} {s t : State} (h : HashState) (hm : s.mode ≠ .done) (ht : exec i s = .next t) :
    ∃ h', exec i (s.setHs h) = .next (t.setHs h') := by
  cases i with
  | nop => cases ht; exact ⟨h, rfl⟩
  | reset => cases ht; exact ⟨iv, rfl⟩
  | absorb d => exact execAbsorb_setHs h ht
  | finalize => exact execFinalize_setHs h ht
  | rddig n =>
    rw [exec_rddig_eq_pushResp, digestReadWord_of_ne_done hm _ (digestBytes h)[n.toNat]?] at ht
    cases ht
    exact ⟨h, exec_rddig_eq_pushResp n _⟩
  | rdhex n =>
    rw [exec_rdhex_eq_pushResp, digestReadWord_of_ne_done hm _ (hexChars h)[n.toNat]?] at ht
    cases ht
    exact ⟨h, exec_rdhex_eq_pushResp n _⟩
  | rdstat sel =>
    rw [exec_rdstat_eq_pushResp, ← s.setHs_statByte h] at ht
    cases ht
    exact ⟨h, exec_rdstat_eq_pushResp sel _⟩

/-- Settles O38: an OK answer means that the checks were passed, and the noninterference is `exec_setHs`. -/
theorem noDigestOutsideDone : Obligations.NoDigestOutsideDone :=
  ⟨fun _ _ _ _ hi h hresps hr => mode_eq_done_of_digestRead_ok hi (codeByPriority_of_response h hresps hr),
    fun _ _ _ h hm ht => exec_setHs h hm ht⟩

end Sys2Proof.Machine
end

section
/-! An engine with no command waiting (spec/60_exceptions.md R106), and the engines of a platform (R104). -/

namespace Sys2Proof.Machine

/-- Settles O8: with no command waiting the step is `State.idle`. -/
theorem idleEngineHoldsItsState : Obligations.IdleEngineHoldsItsState := fun _ hc => step_of_cmds_nil hc

/-- What a step of engine `k` makes of the platform: its own next state in its own place (R104). -/
theorem Platform.stepAt_next {p q : Platform} {k : Nat} (h : Platform.stepAt p k = some (.next q)) :
    ∃ s t, p[k]? = some s ∧ step s = .next t ∧ q = p.set k t := by
  unfold Platform.stepAt at h
  split at h
  case h_1 => cases h
  case h_2 s hs =>
    cases ht : step s with
    | next t =>
      rw [ht] at h
      cases h
      exact ⟨s, t, hs, ht, rfl⟩
    | fault f => simp [ht, Platform.update] at h
    | refused r => simp [ht, Platform.update] at h

/-- Settles O50: the step writes entry `k` of the platform and no other. -/
theorem enginesDoNotInteract : Obligations.EnginesDoNotInteract := by
  intro p q k h
  obtain ⟨s, t, hs, ht, rfl⟩ := Platform.stepAt_next h
  obtain ⟨hk, -⟩ := List.getElem?_eq_some_iff.1 hs
  exact ⟨List.length_set, fun j hj => List.getElem?_set_ne hj.symm, s, t, hs, ht, List.getElem?_set_self hk⟩

end Sys2Proof.Machine
end

section
/-! Command words that arrive early (spec/70_reset_and_hazards.md R112): no command reads the command port or writes it, so
the words waiting behind a command have no part in what it does (spec/20_memory.md R39). -/

namespace Sys2Proof.Machine

/-- The outcome with its next state changed by `g`; a stop stays as it is. -/
def mapNext (g : State → State) : Outcome → Outcome
  | .next t => .next (g t)
  | .fault f => .fault f
  | .refused r => .refused r

/-- The block-full fold does not read the command port. -/
theorem foldFullBlock_setCmds (s t : State) (c : List CmdWord) :
    foldFullBlock (s.setCmds c) (t.setCmds c) = mapNext (·.setCmds c) (foldFullBlock s t) := by
  simp only [foldFullBlock, State.setCmds_memRead, State.setCmds_hs]
  cases t.memRead 0 64 with
  | error f => rfl
  | ok blk => cases hfold : foldBlock blk t.hs <;> simp only [hfold] <;> rfl

/-- ABSORB past its checks does not read the command port: the byte is stored, or stored and the block folded. -/
theorem absorbByte_setCmds (d : Byte) (s : State) (c : List CmdWord) :
    absorbByte d (s.setCmds c) = mapNext (·.setCmds c) (absorbByte d s) := by
  by_cases hfull : s.bufCnt = 63
  · rw [absorbByte_eq_foldFullBlock d hfull, absorbByte_eq_foldFullBlock (s := s.setCmds c) d hfull]
    exact foldFullBlock_setCmds s (s.storeByte d) c
  · rw [absorbByte_store d hfull, absorbByte_store (s := s.setCmds c) d hfull]
    rfl

theorem execAbsorb_setCmds (d : Byte) (s : State) (c : List CmdWord) :
    execAbsorb d (s.setCmds c) = mapNext (·.setCmds c) (execAbsorb d s) := by
  cases hm : s.mode with
  | done | error => simp only [execAbsorb, State.setCmds_mode, hm]; rfl
  | absorb =>
    by_cases hlimit : s.len.toNat = Config.maxMsgBytes
    · rw [execAbsorb_of_limit d hm hlimit, execAbsorb_of_limit (s := s.setCmds c) d hm hlimit]
      rfl
    · rw [execAbsorb_open d hm hlimit, execAbsorb_open (s := s.setCmds c) d hm hlimit]
      exact absorbByte_setCmds d s c

/-- FINALIZE past its mode checks does not read the command port. -/
theorem finalizeTail_setCmds (s : State) (c : List CmdWord) :
    finalizeTail (s.setCmds c) = mapNext (·.setCmds c) (finalizeTail s) := by
  simp only [finalizeTail, State.setCmds_memRead, State.setCmds_bufCnt, State.setCmds_len, State.setCmds_hs]
  cases s.memRead 0 s.bufCnt with
  | error f => rfl
  | ok bs => cases hfold : foldTail (bs ++ padBytes s.len) s.hs <;> simp only [hfold] <;> rfl

theorem execFinalize_setCmds (s : State) (c : List CmdWord) :
    execFinalize (s.setCmds c) = mapNext (·.setCmds c) (execFinalize s) := by
  simp only [execFinalize, State.setCmds_mode]
  cases s.mode with
  | done | error => rfl
  | absorb => exact finalizeTail_setCmds s c

/-- A command does the same whatever words wait at the command port, and leaves them waiting. -/
theorem exec_setCmds (i : Instr) (s : State) (c : List CmdWord) :
    exec i (s.setCmds c) = mapNext (·.setCmds c) (exec i s) := by
  cases i with
  | nop | reset => rfl
  | absorb d => exact execAbsorb_setCmds d s c
  | finalize => exact execFinalize_setCmds s c
  | rddig n => rw [exec_rddig_eq_pushResp, exec_rddig_eq_pushResp]; rfl
  | rdhex n => rw [exec_rdhex_eq_pushResp, exec_rdhex_eq_pushResp]; rfl
  | rdstat sel => rw [exec_rdstat_eq_pushResp, exec_rdstat_eq_pushResp]; rfl

/-- A word sent before a command runs is held behind the words that wait, as if it were sent after. -/
theorem exec_send (i : Instr) (s : State) (w : CmdWord) :
    exec i (s.send w) = mapNext (·.send w) (exec i s) := by
  rw [State.send, exec_setCmds]
  cases ht : exec i s with
  | next t => simp only [mapNext, State.send, (exec_effect ht).cmds]
  | fault f | refused r => rfl

/-- With a command waiting, sending a word and taking a step may be exchanged (R112). -/
theorem step_send {s : State} (w : CmdWord) (hne : s.cmds ≠ []) : step (s.send w) = mapNext (·.send w) (step s) := by
  obtain ⟨v, rest, hc⟩ := List.exists_cons_of_ne_nil hne
  have hcSend : (s.send w).cmds = v :: (rest ++ [w]) := by rw [State.send_cmds, hc, List.cons_append]
  cases hd : decode v with
  | error e =>
    rw [step_of_decode_error hc hd, step_of_decode_error hcSend hd]
    rfl
  | ok i =>
    rw [stepPerformsTheDecodedCommand s v rest i hc hd, stepPerformsTheDecodedCommand _ v _ i hcSend hd]
    exact exec_send i (s.setCmds rest) w

/-- Every step completes or faults (R19). -/
theorem step_ne_refused (s : State) (r : Refusal) : step s ≠ .refused r := by
  rcases step_cases s with ⟨-, he⟩ | ⟨v, rest, -, ⟨e, -, he⟩ | ⟨i, -, he⟩⟩ <;> rw [he]
  · exact nofun
  · exact nofun
  · exact (execFaultsOnlyOnAByteWithoutValue i _).2 r

/-- Settles O10: the exchange `step_send` read for a step that completes and for one that faults. -/
theorem earlyCommandIsHeldInOrder : Obligations.EarlyCommandIsHeldInOrder := by
  intro s w hne
  refine ⟨fun t h => ?_, fun f h => ?_, step_ne_refused s⟩ <;> rw [step_send w hne, h] <;> rfl

end Sys2Proof.Machine
end
